-- ==== Sys2Proof/Word.lean ====
section
/-! DEFINITION. The word types of CHIP8-CORE: bytes, 16-bit words, the instruction fields' widths, timestamps and the
pixel grid (spec/00_scope.md R7, spec/10_state.md section 1). Every quantity of the hardware is unsigned. -/

namespace Sys2Proof

/-- A memory cell, a V register, a timer (10_state R20, R21, R27). -/
abbrev Byte := BitVec 8

/-- An instruction word, I, PC, a stack entry, ERR_OPCODE, ERR_PC (10_state R23, R24, R26, R31). -/
abbrev Word := BitVec 16

/-- A 4-bit instruction field: `op`, `x`, `y` or `n` (30_encoding R81). As `x` or `y` it names a register. -/
abbrev Nibble := BitVec 4

/-- The 12-bit address field `nnn` (30_encoding R81). -/
abbrev Addr := BitVec 12

/-- A count of microseconds (10_state R30). -/
abbrev Micros := BitVec 64

/-- The framebuffer: 32 rows of 64 pixels, true = on (10_state R28). -/
abbrev Screen := Vector (Vector Bool 64) 32

end Sys2Proof
end

