-- ==== Sys2Proof/Config.lean ====
section
/-! DEFINITION. What an implementation fixes: the fixed sizes and the parameters of spec/00_scope.md R6. The parameters
are one plain record; State carries it, so a statement about every state holds for every choice of them. The
hardware leaves no other value open that an instruction could see: the random byte and the keys are inputs. -/

namespace Sys2Proof

/-- What DXYN does with a pixel past the right or bottom edge (44_display R183). -/
inductive SpriteEdge where
  | clip
  | wrap
  deriving DecidableEq, Repr

/-- The parameters of 00_scope R6, constant from one reset to the next (10_state R33 (d)). -/
structure Params where
  /-- STACK_DEPTH, the capacity of the call stack. -/
  stackDepth : Nat
  /-- FONT_BASE, the address of glyph 0. -/
  fontBase : Nat
  /-- FONT_DATA, sixteen glyphs of 5 bytes. -/
  fontData : Vector Byte 80
  /-- CPU_HZ, the frequency of the CPU clock; legal values 1 and above. -/
  cpuHz : Nat
  /-- SPRITE_EDGE. -/
  spriteEdge : SpriteEdge
  deriving DecidableEq, Repr

/-- MEM_SIZE: addresses 0 to 4095 (20_memory R50). -/
def memSize : Nat := 4096

/-- ROM_BASE, the reset value of PC (10_state R24). -/
def romBase : Nat := 0x200

/-- ROM_MAX, the longest image that loads (20_memory R66). -/
def romMax : Nat := 3584

end Sys2Proof
end

