-- ==== Sys2Proof/Machine/Memory.lean ====
section
/-! DEFINITION. MEM (spec/20_memory.md): a list of the cells that differ from the memory's contents before any ROM or
store, in rising order of address. The bounds check of R57 is in Machine/Ops.lean; here every address is a plain
number. -/

namespace Sys2Proof.Machine

/-- MEM as data: strictly rising addresses, no cell that holds what an unlisted address reads as. -/
abbrev Memory := List Host.Cell

/-- What an unlisted address reads as: the font at FONT_BASE, 0x00 elsewhere (20_memory R51, 10_state R35). -/
def initialByte (p : Params) (a : Nat) : Byte :=
  if h : p.fontBase ≤ a ∧ a < p.fontBase + 80 then p.fontData[a - p.fontBase] else 0x00

/-- The listed byte at an address. -/
def Memory.lookup : Memory → Nat → Option Byte
  | [], _ => none
  | (b, u) :: rest, a => if a = b then some u else Memory.lookup rest a

/-- The byte at an address. -/
def Memory.read (p : Params) (m : Memory) (a : Nat) : Byte :=
  (Memory.lookup m a).getD (initialByte p a)

/-- `m` with `v` at `a`, where `d` is what `a` reads as unlisted. -/
def Memory.put (d : Byte) (a : Nat) (v : Byte) : Memory → Memory
  | [] => if v = d then [] else [(a, v)]
  | (b, u) :: rest =>
    if a < b then if v = d then (b, u) :: rest else (a, v) :: (b, u) :: rest
    else if a = b then if v = d then rest else (a, v) :: rest
    else (b, u) :: Memory.put d a v rest

/-- `m` with the byte `v` at `a`, in the canonical form. -/
def Memory.write (p : Params) (m : Memory) (a : Nat) (v : Byte) : Memory :=
  Memory.put (initialByte p a) a v m

/-- `m` with the bytes from `a` upward (the copy of 20_memory R66). -/
def Memory.writeList (p : Params) (m : Memory) (a : Nat) : List Byte → Memory
  | [] => m
  | b :: bs => Memory.writeList p (Memory.write p m a b) (a + 1) bs

/-- The canonical form: every listed address exists, no listed byte is the unlisted one, addresses strictly rise. -/
def Memory.wf (p : Params) : Memory → Bool
  | [] => true
  | (a, v) :: rest =>
    decide (a < memSize) && decide (v ≠ initialByte p a) && rest.all (fun c => decide (a < c.1)) && Memory.wf p rest

end Sys2Proof.Machine
end

