-- ==== Sys2Proof/Machine/Parameters.lean ====
section
/-! DEFINITION. The default parameters of spec/00_scope.md R6 and the default font of spec/20_memory.md R53. -/

namespace Sys2Proof.Machine

/-- FONT_DATA's default, one row a digit, 0 to F (20_memory R53; PRESUMED by the spec itself, log 1). -/
def defaultFont : Vector Byte 80 :=
  #v[0xF0, 0x90, 0x90, 0x90, 0xF0,
     0x20, 0x60, 0x20, 0x20, 0x70,
     0xF0, 0x10, 0xF0, 0x80, 0xF0,
     0xF0, 0x10, 0xF0, 0x10, 0xF0,
     0x90, 0x90, 0xF0, 0x10, 0x10,
     0xF0, 0x80, 0xF0, 0x10, 0xF0,
     0xF0, 0x80, 0xF0, 0x90, 0xF0,
     0xF0, 0x10, 0x20, 0x40, 0x40,
     0xF0, 0x90, 0xF0, 0x90, 0xF0,
     0xF0, 0x90, 0xF0, 0x10, 0xF0,
     0xF0, 0x90, 0xF0, 0x90, 0x90,
     0xE0, 0x90, 0xE0, 0x90, 0xE0,
     0xF0, 0x80, 0x80, 0x80, 0xF0,
     0xE0, 0x90, 0x90, 0x90, 0xE0,
     0xF0, 0x80, 0xF0, 0x80, 0xF0,
     0xF0, 0x80, 0xF0, 0x80, 0x80]

/-- The defaults of 00_scope R6. -/
def defaultParams : Params where
  stackDepth := 16
  fontBase := 0x050
  fontData := defaultFont
  cpuHz := 1000
  spriteEdge := .clip

end Sys2Proof.Machine
end

