-- ==== Sys2Proof/Syntax.lean ====
section
/-! DEFINITION. The instructions: one constructor per row of the opcode map of spec/30_encoding.md R85, in its order.
A field the row ignores (x of 00E0 and 00EE, y of 8XY6 and 8XYE, R88) is kept as an operand, so that the term
determines its word: ERR_OPCODE records the whole word (60_exceptions R250). -/

namespace Sys2Proof

/-- The 34 instructions of 30_encoding R85. -/
inductive Instr where
  /-- 00E0 CLS (44 R180); `x` is ignored. -/
  | cls (x : Nibble)
  /-- 00EE RET (41 R120); `x` is ignored. -/
  | ret (x : Nibble)
  /-- 1NNN JP nnn (41 R121). -/
  | jp (nnn : Addr)
  /-- 2NNN CALL nnn (41 R122). -/
  | call (nnn : Addr)
  /-- 3XNN SE Vx, nn (41 R123). -/
  | seImm (x : Nibble) (nn : Byte)
  /-- 4XNN SNE Vx, nn (41 R124). -/
  | sneImm (x : Nibble) (nn : Byte)
  /-- 5XY0 SE Vx, Vy (41 R125). -/
  | seReg (x y : Nibble)
  /-- 6XNN LD Vx, nn (42 R140). -/
  | ldImm (x : Nibble) (nn : Byte)
  /-- 7XNN ADD Vx, nn (42 R141). -/
  | addImm (x : Nibble) (nn : Byte)
  /-- 8XY0 LD Vx, Vy (42 R142). -/
  | ldReg (x y : Nibble)
  /-- 8XY1 OR Vx, Vy (42 R143). -/
  | orReg (x y : Nibble)
  /-- 8XY2 AND Vx, Vy (42 R144). -/
  | andReg (x y : Nibble)
  /-- 8XY3 XOR Vx, Vy (42 R145). -/
  | xorReg (x y : Nibble)
  /-- 8XY4 ADD Vx, Vy (42 R146). -/
  | addReg (x y : Nibble)
  /-- 8XY5 SUB Vx, Vy (42 R147). -/
  | subReg (x y : Nibble)
  /-- 8XY6 SHR Vx (42 R148); `y` is ignored. -/
  | shr (x y : Nibble)
  /-- 8XY7 SUBN Vx, Vy (42 R149). -/
  | subnReg (x y : Nibble)
  /-- 8XYE SHL Vx (42 R150); `y` is ignored. -/
  | shl (x y : Nibble)
  /-- 9XY0 SNE Vx, Vy (41 R126). -/
  | sneReg (x y : Nibble)
  /-- ANNN LD I, nnn (43 R160). -/
  | ldI (nnn : Addr)
  /-- BNNN JP V0, nnn (41 R127). -/
  | jpV0 (nnn : Addr)
  /-- CXNN RND Vx, nn (42 R151). -/
  | rnd (x : Nibble) (nn : Byte)
  /-- DXYN DRW Vx, Vy, n (44 R181). -/
  | drw (x y n : Nibble)
  /-- EX9E SKP Vx (45 R200). -/
  | skp (x : Nibble)
  /-- EXA1 SKNP Vx (45 R201). -/
  | sknp (x : Nibble)
  /-- FX07 LD Vx, DT (45 R202). -/
  | ldVxDt (x : Nibble)
  /-- FX0A LD Vx, K (45 R203). -/
  | ldVxK (x : Nibble)
  /-- FX15 LD DT, Vx (45 R204). -/
  | ldDtVx (x : Nibble)
  /-- FX18 LD ST, Vx (45 R205). -/
  | ldStVx (x : Nibble)
  /-- FX1E ADD I, Vx (43 R161). -/
  | addI (x : Nibble)
  /-- FX29 LD F, Vx (43 R162). -/
  | ldF (x : Nibble)
  /-- FX33 LD B, Vx (43 R163). -/
  | ldB (x : Nibble)
  /-- FX55 LD [I], Vx (43 R164). -/
  | ldMemVx (x : Nibble)
  /-- FX65 LD Vx, [I] (43 R165). -/
  | ldVxMem (x : Nibble)
  deriving DecidableEq, Repr

end Sys2Proof
end

