-- ==== Sys2Proof/WellFormed.lean ====
section
/-! DEFINITION. The checks on what comes from outside. An instruction term needs none: its fields have exactly the
widths of spec/30_encoding.md R81, and every register index names a register (10_state R21), so every term of Instr
is well formed. What the host hands to Reset is checked: the ROM's length and CPU_HZ (70_reset R290), and that the
font lies inside the memory (20_memory R51). -/

namespace Sys2Proof

/-- An image of at most 3584 bytes fits (20_memory R66). -/
def romFits (rom : List Byte) : Bool := rom.length ≤ romMax

/-- CPU_HZ is 1 or above (46 R220). -/
def Params.cpuHzLegal (p : Params) : Bool := 1 ≤ p.cpuHz

/-- The 80 cells the font is copied to exist (20_memory R51, R52). DEDUCED: the spec gives FONT_BASE no range (log 12). -/
def Params.fontFits (p : Params) : Bool := p.fontBase + 80 ≤ memSize

/-- Parameters with which the core starts. -/
def Params.wellFormed (p : Params) : Bool := p.cpuHzLegal && p.fontFits

end Sys2Proof
end

