-- ==== Sys2Proof/Machine/State.lean ====
section
/-! DEFINITION. The state of CHIP8-CORE (spec/10_state.md) as plain data, what the host does next (spec/46 R231), the
reasons a step can stop, and the state after reset (R35). -/

namespace Sys2Proof.Machine

/-- The five fatal conditions (60_exceptions R250). -/
inductive Cause where
  | decodeError
  | memoryFault
  | stackUnderflow
  | stackOverflow
  | keyIndexFault
  deriving DecidableEq, Repr

/-- One value per logical clock: CPU, TIMER, DISPLAY (46 R220). -/
structure Clocks where
  cpu : Micros
  timer : Micros
  display : Micros
  deriving DecidableEq, Repr

/-- The inputs of one PollStep: NOW, KEYS (bit k is key k) and RAND (46 R222, 60 R265). -/
structure PollInput where
  now : Micros
  keys : BitVec 16
  rand : Byte
  deriving DecidableEq, Repr

/-- The two things the host can do to the core (46 R231): poll it, or reset it with parameters, a ROM and the time. -/
inductive HostEvent where
  | poll (p : PollInput)
  | reset (params : Params) (rom : List Byte) (now : Micros)
  deriving DecidableEq, Repr

/-- Everything the machine holds. The last five fields are the model's own (log 3, 4, 5, 7): the parameters, the two input
ports as sampled for the current PollStep, the time the host gave last, and what the host does next. -/
structure State where
  /-- MEM (10_state R20). -/
  mem : Memory
  /-- V0 to VF (R21, R22). -/
  v : Vector Byte 16
  /-- I (R23). -/
  i : Word
  /-- PC (R24, R25). -/
  pc : Word
  /-- STACK, entry 0 the oldest, the entries from SP on dead (R26). -/
  stack : List Word
  /-- SP, the number of live entries (R26). -/
  sp : Nat
  /-- DT (R27). -/
  dt : Byte
  /-- ST (R27). -/
  st : Byte
  /-- FB (R28). -/
  fb : Screen
  /-- DIRTY (R29). -/
  dirty : Bool
  /-- LAST (R30). -/
  last : Clocks
  /-- HALTED (R31). -/
  halted : Bool
  /-- ERR_CAUSE (R31). -/
  errCause : BitVec 3
  /-- ERR_OPCODE (R31). -/
  errOpcode : Word
  /-- ERR_PC (R31). -/
  errPc : Word
  /-- FB_OUT, the grid the display port shows since the last Refresh (60 R265). -/
  fbOut : Screen
  /-- DIRTY_OUT, DIRTY as it stood at the last Refresh (60 R265). -/
  dirtyOut : Bool
  /-- The parameters (00_scope R6). -/
  params : Params
  /-- KEYS as sampled for the current PollStep (10_state R33 (a)). -/
  keys : BitVec 16
  /-- RAND as sampled for the current PollStep (10_state R33 (c)). -/
  rand : Byte
  /-- NOW as the latest PollStep of the running core, or the Reset if there was none since, had it (46 R227; log 7). -/
  hostTime : Micros
  /-- What the host does next, one event a step (46 R231). -/
  host : List HostEvent
  deriving DecidableEq, Repr

/-- A machine that the spec does not have. SAFE: no state a run reaches raises it (log 9). -/
inductive Fault where
  /-- Raised by RET and CALL in a state whose SP names a stack entry beyond those that STACK holds; `10_state` R36 (a)
  rules such states out. Safe. -/
  | noSuchStackEntry
  deriving DecidableEq, Repr

/-- What the model declines to give a result. -/
inductive Refusal where
  /-- An instruction that has no meaning yet, by its mnemonic. Safe. -/
  | notModelled (mnemonic : String)
  /-- Raised by a PollStep of a running core whose `now` is less than that of the PollStep or Reset before it, or less than
  a clock's last-fire time: the host must not supply it and the spec gives such a step no meaning (46 R227, 93 U15).
  Safe. -/
  | timeWentBack
  /-- Raised by a Reset with an image of more than 3584 bytes: the core does not start (20_memory R66). Safe. -/
  | romTooLong
  /-- Raised by a Reset with CPU_HZ = 0: the core does not start (46 R220). Safe. -/
  | cpuHzZero
  /-- Raised by a Reset whose FONT_BASE puts the font past the end of memory (log 12). Safe. -/
  | fontOutsideMemory
  deriving DecidableEq, Repr

/-- A framebuffer with every pixel off. -/
def blankScreen : Screen := Vector.replicate 32 (Vector.replicate 64 false)

/-- The state right after `Reset` with the default parameters, the empty ROM and `now` = 0 (10_state R35; log 2, 4, 5,
6, 11 for what the spec's table does not give). -/
def State.reset : State where
  mem := []
  v := Vector.replicate 16 0x00
  i := 0x0000
  pc := 0x0200
  stack := List.replicate 16 0x0000
  sp := 0
  dt := 0x00
  st := 0x00
  fb := blankScreen
  dirty := false
  last := { cpu := 0, timer := 0, display := 0 }
  halted := false
  errCause := 0
  errOpcode := 0x0000
  errPc := 0x0000
  fbOut := blankScreen
  dirtyOut := false
  params := defaultParams
  keys := 0
  rand := 0x00
  hostTime := 0
  host := []

end Sys2Proof.Machine
end

