-- ==== Sys2Proof/Machine/Reset.lean ====
section
/-! DEFINITION. `Reset` (spec/70_reset_and_hazards.md R290). -/

namespace Sys2Proof.Machine

/-- The state after Reset with parameters `p`, image `rom` and time `now` (10_state R35); `todo` is what the host does
after it. It depends on nothing of the state before. -/
def resetWith (p : Params) (rom : List Byte) (now : Micros) (todo : List HostEvent) : State :=
  { State.reset with
    mem := Memory.writeList p [] romBase rom
    stack := List.replicate p.stackDepth 0x0000
    last := { cpu := now, timer := now, display := now }
    params := p
    hostTime := now
    host := todo }

/-- `Reset`: refused where the image does not fit or a parameter is not legal; else every element takes its reset value,
whatever the state was, the halted state included. -/
def resetCore (p : Params) (rom : List Byte) (now : Micros) (todo : List HostEvent) :
    Host.Outcome State Fault Refusal :=
  if romFits rom = false then .refused .romTooLong
  else if p.cpuHzLegal = false then .refused .cpuHzZero
  else if p.fontFits = false then .refused .fontOutsideMemory
  else .next (resetWith p rom now todo)

end Sys2Proof.Machine
end

