-- ==== Sys2Proof/Decode.lean ====
section
/-! DEFINITION. The decoder and the encoder (spec/30_encoding.md). The decoder is the two-level dispatch of R84 on the
fields of R81; the opcode map of R85 stands beside it as a table of masks and values; the encoder writes the formats
of R82. -/

namespace Sys2Proof

/-! ## Fields (R81) -/

/-- `op`, bits 15:12. -/
def opField (w : Word) : Nibble := w.extractLsb' 12 4
/-- `x`, bits 11:8. -/
def xField (w : Word) : Nibble := w.extractLsb' 8 4
/-- `y`, bits 7:4. -/
def yField (w : Word) : Nibble := w.extractLsb' 4 4
/-- `n`, bits 3:0. -/
def nField (w : Word) : Nibble := w.extractLsb' 0 4
/-- `nn`, bits 7:0. -/
def nnField (w : Word) : Byte := w.extractLsb' 0 8
/-- `nnn`, bits 11:0. -/
def nnnField (w : Word) : Addr := w.extractLsb' 0 12

/-! ## Decoding (R84 to R86) -/

/-- Why bytes are no instruction. -/
inductive Reject where
  /-- The word matches no row of R85 (R86): a fatal DecodeError when a Tick decodes it. -/
  | undefinedWord (w : Word)
  /-- Fewer than two bytes: an instruction is exactly 16 bits (R80). -/
  | fewerThanTwoBytes
  deriving DecidableEq, Repr

/-- Family 0: `nn` selects. -/
def decodeFamily0 (w : Word) : Except Reject Instr :=
  if nnField w = 0xE0#8 then .ok (.cls (xField w))
  else if nnField w = 0xEE#8 then .ok (.ret (xField w))
  else .error (.undefinedWord w)

/-- Family 5: `n` must be 0. -/
def decodeFamily5 (w : Word) : Except Reject Instr :=
  if nField w = 0x0#4 then .ok (.seReg (xField w) (yField w)) else .error (.undefinedWord w)

/-- Family 8: `n` selects. -/
def decodeFamily8 (w : Word) : Except Reject Instr :=
  if nField w = 0x0#4 then .ok (.ldReg (xField w) (yField w))
  else if nField w = 0x1#4 then .ok (.orReg (xField w) (yField w))
  else if nField w = 0x2#4 then .ok (.andReg (xField w) (yField w))
  else if nField w = 0x3#4 then .ok (.xorReg (xField w) (yField w))
  else if nField w = 0x4#4 then .ok (.addReg (xField w) (yField w))
  else if nField w = 0x5#4 then .ok (.subReg (xField w) (yField w))
  else if nField w = 0x6#4 then .ok (.shr (xField w) (yField w))
  else if nField w = 0x7#4 then .ok (.subnReg (xField w) (yField w))
  else if nField w = 0xE#4 then .ok (.shl (xField w) (yField w))
  else .error (.undefinedWord w)

/-- Family 9: `n` must be 0. -/
def decodeFamily9 (w : Word) : Except Reject Instr :=
  if nField w = 0x0#4 then .ok (.sneReg (xField w) (yField w)) else .error (.undefinedWord w)

/-- Family E: `nn` selects. -/
def decodeFamilyE (w : Word) : Except Reject Instr :=
  if nnField w = 0x9E#8 then .ok (.skp (xField w))
  else if nnField w = 0xA1#8 then .ok (.sknp (xField w))
  else .error (.undefinedWord w)

/-- Family F: `nn` selects. -/
def decodeFamilyF (w : Word) : Except Reject Instr :=
  if nnField w = 0x07#8 then .ok (.ldVxDt (xField w))
  else if nnField w = 0x0A#8 then .ok (.ldVxK (xField w))
  else if nnField w = 0x15#8 then .ok (.ldDtVx (xField w))
  else if nnField w = 0x18#8 then .ok (.ldStVx (xField w))
  else if nnField w = 0x1E#8 then .ok (.addI (xField w))
  else if nnField w = 0x29#8 then .ok (.ldF (xField w))
  else if nnField w = 0x33#8 then .ok (.ldB (xField w))
  else if nnField w = 0x55#8 then .ok (.ldMemVx (xField w))
  else if nnField w = 0x65#8 then .ok (.ldVxMem (xField w))
  else .error (.undefinedWord w)

/-- The instruction a word stands for, or the refusal by name. Total on all 65536 words (R84). -/
def decodeWord (w : Word) : Except Reject Instr :=
  if opField w = 0x0#4 then decodeFamily0 w
  else if opField w = 0x1#4 then .ok (.jp (nnnField w))
  else if opField w = 0x2#4 then .ok (.call (nnnField w))
  else if opField w = 0x3#4 then .ok (.seImm (xField w) (nnField w))
  else if opField w = 0x4#4 then .ok (.sneImm (xField w) (nnField w))
  else if opField w = 0x5#4 then decodeFamily5 w
  else if opField w = 0x6#4 then .ok (.ldImm (xField w) (nnField w))
  else if opField w = 0x7#4 then .ok (.addImm (xField w) (nnField w))
  else if opField w = 0x8#4 then decodeFamily8 w
  else if opField w = 0x9#4 then decodeFamily9 w
  else if opField w = 0xA#4 then .ok (.ldI (nnnField w))
  else if opField w = 0xB#4 then .ok (.jpV0 (nnnField w))
  else if opField w = 0xC#4 then .ok (.rnd (xField w) (nnField w))
  else if opField w = 0xD#4 then .ok (.drw (xField w) (yField w) (nField w))
  else if opField w = 0xE#4 then decodeFamilyE w
  else decodeFamilyF w

/-- Two bytes as an instruction word, the byte at the lower address high (R80, 20_memory R55). -/
def wordOfBytes (hi lo : Byte) : Word := hi ++ lo

/-- Decode the first instruction of any byte string, with the bytes left over. -/
def decode : List Byte → Except Reject (Instr × List Byte)
  | hi :: lo :: rest =>
    match decodeWord (wordOfBytes hi lo) with
    | .ok i => .ok (i, rest)
    | .error r => .error r
  | _ => .error .fewerThanTwoBytes

/-! ## Encoding (R82) -/

/-- Formats XYN, XYS: four nibbles. -/
def packNibbles (op x y n : Nibble) : Word := op ++ x ++ y ++ n
/-- Formats XNN, XSS, ZSS: two nibbles and a byte. -/
def packByte (op x : Nibble) (nn : Byte) : Word := op ++ x ++ nn
/-- Format NNN: a nibble and twelve bits. -/
def packAddr (op : Nibble) (nnn : Addr) : Word := op ++ nnn

/-- The word of an instruction. -/
def encode : Instr → Word
  | .cls x => packByte 0x0 x 0xE0
  | .ret x => packByte 0x0 x 0xEE
  | .jp nnn => packAddr 0x1 nnn
  | .call nnn => packAddr 0x2 nnn
  | .seImm x nn => packByte 0x3 x nn
  | .sneImm x nn => packByte 0x4 x nn
  | .seReg x y => packNibbles 0x5 x y 0x0
  | .ldImm x nn => packByte 0x6 x nn
  | .addImm x nn => packByte 0x7 x nn
  | .ldReg x y => packNibbles 0x8 x y 0x0
  | .orReg x y => packNibbles 0x8 x y 0x1
  | .andReg x y => packNibbles 0x8 x y 0x2
  | .xorReg x y => packNibbles 0x8 x y 0x3
  | .addReg x y => packNibbles 0x8 x y 0x4
  | .subReg x y => packNibbles 0x8 x y 0x5
  | .shr x y => packNibbles 0x8 x y 0x6
  | .subnReg x y => packNibbles 0x8 x y 0x7
  | .shl x y => packNibbles 0x8 x y 0xE
  | .sneReg x y => packNibbles 0x9 x y 0x0
  | .ldI nnn => packAddr 0xA nnn
  | .jpV0 nnn => packAddr 0xB nnn
  | .rnd x nn => packByte 0xC x nn
  | .drw x y n => packNibbles 0xD x y n
  | .skp x => packByte 0xE x 0x9E
  | .sknp x => packByte 0xE x 0xA1
  | .ldVxDt x => packByte 0xF x 0x07
  | .ldVxK x => packByte 0xF x 0x0A
  | .ldDtVx x => packByte 0xF x 0x15
  | .ldStVx x => packByte 0xF x 0x18
  | .addI x => packByte 0xF x 0x1E
  | .ldF x => packByte 0xF x 0x29
  | .ldB x => packByte 0xF x 0x33
  | .ldMemVx x => packByte 0xF x 0x55
  | .ldVxMem x => packByte 0xF x 0x65

/-- The two bytes of a word in memory order (R80). -/
def bytesOfWord (w : Word) : List Byte := [w.extractLsb' 8 8, w.extractLsb' 0 8]

/-! ## The opcode map as a table (R85) -/

/-- A row of R85: its number, its mask and its match. -/
structure OpcodeRow where
  number : Nat
  mask : Word
  value : Word
  deriving DecidableEq, Repr

/-- The rows 1 to 19 of R85, by family. -/
def opcodeMapLow : List OpcodeRow :=
  [⟨1, 0xF0FF, 0x00E0⟩, ⟨2, 0xF0FF, 0x00EE⟩, ⟨3, 0xF000, 0x1000⟩, ⟨4, 0xF000, 0x2000⟩, ⟨5, 0xF000, 0x3000⟩,
   ⟨6, 0xF000, 0x4000⟩, ⟨7, 0xF00F, 0x5000⟩, ⟨8, 0xF000, 0x6000⟩, ⟨9, 0xF000, 0x7000⟩, ⟨10, 0xF00F, 0x8000⟩,
   ⟨11, 0xF00F, 0x8001⟩, ⟨12, 0xF00F, 0x8002⟩, ⟨13, 0xF00F, 0x8003⟩, ⟨14, 0xF00F, 0x8004⟩, ⟨15, 0xF00F, 0x8005⟩,
   ⟨16, 0xF00F, 0x8006⟩, ⟨17, 0xF00F, 0x8007⟩, ⟨18, 0xF00F, 0x800E⟩, ⟨19, 0xF00F, 0x9000⟩]

/-- The rows 20 to 34 of R85. -/
def opcodeMapHigh : List OpcodeRow :=
  [⟨20, 0xF000, 0xA000⟩, ⟨21, 0xF000, 0xB000⟩, ⟨22, 0xF000, 0xC000⟩, ⟨23, 0xF000, 0xD000⟩, ⟨24, 0xF0FF, 0xE09E⟩,
   ⟨25, 0xF0FF, 0xE0A1⟩, ⟨26, 0xF0FF, 0xF007⟩, ⟨27, 0xF0FF, 0xF00A⟩, ⟨28, 0xF0FF, 0xF015⟩, ⟨29, 0xF0FF, 0xF018⟩,
   ⟨30, 0xF0FF, 0xF01E⟩, ⟨31, 0xF0FF, 0xF029⟩, ⟨32, 0xF0FF, 0xF033⟩, ⟨33, 0xF0FF, 0xF055⟩, ⟨34, 0xF0FF, 0xF065⟩]

/-- The complete opcode map of R85. -/
def opcodeMap : List OpcodeRow := opcodeMapLow ++ opcodeMapHigh

/-- The number of an instruction's row in R85. -/
def Instr.rowNumber : Instr → Nat
  | .cls _ => 1
  | .ret _ => 2
  | .jp _ => 3
  | .call _ => 4
  | .seImm _ _ => 5
  | .sneImm _ _ => 6
  | .seReg _ _ => 7
  | .ldImm _ _ => 8
  | .addImm _ _ => 9
  | .ldReg _ _ => 10
  | .orReg _ _ => 11
  | .andReg _ _ => 12
  | .xorReg _ _ => 13
  | .addReg _ _ => 14
  | .subReg _ _ => 15
  | .shr _ _ => 16
  | .subnReg _ _ => 17
  | .shl _ _ => 18
  | .sneReg _ _ => 19
  | .ldI _ => 20
  | .jpV0 _ => 21
  | .rnd _ _ => 22
  | .drw _ _ _ => 23
  | .skp _ => 24
  | .sknp _ => 25
  | .ldVxDt _ => 26
  | .ldVxK _ => 27
  | .ldDtVx _ => 28
  | .ldStVx _ => 29
  | .addI _ => 30
  | .ldF _ => 31
  | .ldB _ => 32
  | .ldMemVx _ => 33
  | .ldVxMem _ => 34

/-! ## The host's question -/

/-- The word whose low `nbits` bits are those of `w`, the bits above them zero. -/
def tableWord (nbits w : Nat) : Word := BitVec.ofNat 16 (w % 2 ^ nbits)

/-- The instruction the decoder reads from an instruction whose bits are `w`, numbered as spec/opcode_table.json
numbers them: the word is laid out in memory high byte first and decoded from there. -/
def decodeTableWord (nbits w : Nat) : Option Instr :=
  match decode (bytesOfWord (tableWord nbits w)) with
  | .ok (i, _) => some i
  | .error _ => none

end Sys2Proof
end

