-- ==== Sys2Proof/Machine/Flags.lean ====
section
/-! DEFINITION. The flag values written to VF, always the byte 0x01 or 0x00 (spec/42_load_alu.md R152 (b)). -/

namespace Sys2Proof.Machine

/-- A condition as a flag byte. -/
def flagByte (b : Bool) : Byte := if b then 0x01 else 0x00

/-- Carry out of bit 7: the exact sum is above 255 (42 R146). -/
def carryFlag (a b : Byte) : Byte := flagByte (decide (255 < a.toNat + b.toNat))

/-- Not borrow: the minuend is at least the subtrahend (42 R147, R149). -/
def notBorrowFlag (a b : Byte) : Byte := flagByte (decide (b.toNat ≤ a.toNat))

/-- The bit a right shift pushes out (42 R148). -/
def lowBitFlag (a : Byte) : Byte := flagByte (a.getLsbD 0)

/-- The bit a left shift pushes out (42 R150). -/
def highBitFlag (a : Byte) : Byte := flagByte (a.getLsbD 7)

end Sys2Proof.Machine
end

