-- ==== Sys2Proof/Machine/Operands.lean ====
section
/-! DEFINITION. What instructions read: registers, effective addresses, jump targets, glyph addresses, sprite
coordinates, decimal digits, keys. Addresses are exact numbers, never wrapped (spec/20_memory.md R57 (b)). -/

namespace Sys2Proof.Machine

/-- `V[x]` (10_state R21). -/
def State.reg (s : State) (x : Nibble) : Byte := s.v[x.toNat]'x.isLt

/-- VF, the flag register (10_state R22). -/
def flagReg : Nibble := 0xF

/-- `I + k` (43 R166). -/
def effectiveAddress (s : State) (k : Nat) : Nat := s.i.toNat + k

/-- `pc0`, the address of the executing instruction: PC already holds `pc0 + 2` (40 R102; log 18). -/
def instructionAddress (s : State) : Word := s.pc - 2

/-- `nnn` as an address (41 R121, 43 R160: zero-extended). -/
def absoluteTarget (nnn : Addr) : Word := nnn.setWidth 16

/-- `nnn + V0`, the exact sum, which fits 16 bits (41 R127). -/
def offsetTarget (nnn : Addr) (v0 : Byte) : Word := nnn.setWidth 16 + v0.setWidth 16

/-- `FONT_BASE + 5 * v`, the whole byte used (43 R162). -/
def glyphAddress (p : Params) (v : Byte) : Word := BitVec.ofNat 16 (p.fontBase + 5 * v.toNat)

/-- Hundreds, tens, units, each in a byte of its own (43 R163). -/
def decimalDigits (v : Byte) : List Byte :=
  [BitVec.ofNat 8 (v.toNat / 100), BitVec.ofNat 8 (v.toNat / 10 % 10), BitVec.ofNat 8 (v.toNat % 10)]

/-- `V0` to `Vx`, in order (43 R164). -/
def registersUpTo (s : State) (x : Nibble) : List Byte := s.v.toList.take (x.toNat + 1)

/-- The start column of a sprite (44 R181). -/
def startColumn (v : Byte) : Nat := v.toNat % 64

/-- The start row of a sprite (44 R181). -/
def startRow (v : Byte) : Nat := v.toNat % 32

/-- `keys[k]` (45, 10_state R33 (a)); no key above 15 is pressed. -/
def keyPressed (s : State) (k : Nat) : Bool := s.keys.getLsbD k

/-- The least pressed key, if any is pressed (45 R203). -/
def lowestKey (s : State) : Option Nat := (List.range 16).find? (keyPressed s)

end Sys2Proof.Machine
end

