-- ==== Sys2Proof/Machine/Ops.lean ====
section
/-! DEFINITION. The named operations over registers, memory, stack and framebuffer, and the taking of a fatal
condition (spec/60_exceptions.md R259), which is this machine's only exception; there is no return from it (R261). -/

namespace Sys2Proof.Machine

/-! ## Raising -/

/-- ERR_CAUSE's code of a cause (60 R250). -/
def Cause.code : Cause → BitVec 3
  | .decodeError => 1
  | .memoryFault => 2
  | .stackUnderflow => 3
  | .stackOverflow => 4
  | .keyIndexFault => 5

/-- `raise`: record cause, word and address, and halt; nothing else changes (60 R259). -/
def raise (c : Cause) (w pc0 : Word) (s : State) : State :=
  { s with errCause := c.code, errOpcode := w, errPc := pc0, halted := true }

/-- How far a piece of an instruction came: it went on, it raised a fatal condition in the state it had reached
(60 R260), or it met a state the machine does not have. -/
inductive Part where
  | went (s : State)
  | raised (c : Cause) (s : State)
  | broken (f : Fault)
  deriving DecidableEq, Repr

/-- Go on with `f` where the piece before went on. -/
def Part.andThen (p : Part) (f : State → Part) : Part :=
  match p with
  | .went s => f s
  | .raised c s => .raised c s
  | .broken r => .broken r

/-- The outcome of the instruction `i`, fetched from `pc0`, whose pieces came to `p`: a raise enters the halted state
with the whole word as ERR_OPCODE (40 R104). -/
def finish (i : Instr) (pc0 : Word) : Part → Host.Outcome State Fault Refusal
  | .went s => .next s
  | .raised c s => .next (raise c (encode i) pc0 s)
  | .broken f => .fault f

/-! ## Registers and PC -/

/-- `V[x] <- b` (00_scope R8). -/
def State.setReg (s : State) (x : Nibble) (b : Byte) : State := { s with v := s.v.set x.toNat b x.isLt }

/-- `PC <- a`. -/
def State.setPc (s : State) (a : Word) : State := { s with pc := a }

/-- `I <- a`. -/
def State.setI (s : State) (a : Word) : State := { s with i := a }

/-- Add a further 2 to PC when the condition holds (41 R128). -/
def skipIf (b : Bool) (s : State) : State := if b then s.setPc (s.pc + 2) else s

/-! ## Memory (20_memory R54 to R57) -/

/-- `MemRead(a, 1)`: none where it raises MemoryFault (R54). -/
def State.byteAt (s : State) (a : Nat) : Option Byte := if a ≤ 4095 then some (s.mem.read s.params a) else none

/-- `MemRead(a, 2)`, big-endian: none where it raises MemoryFault (R55). -/
def State.wordAt (s : State) (a : Nat) : Option Word :=
  if a + 1 ≤ 4095 then some (wordOfBytes (s.mem.read s.params a) (s.mem.read s.params (a + 1))) else none

/-- The state with the byte `b` in memory at `a`. -/
def State.setByte (s : State) (a : Nat) (b : Byte) : State := { s with mem := s.mem.write s.params a b }

/-- `MemWrite(a, 1, b)` (R56). -/
def writeByte (a : Nat) (b : Byte) (s : State) : Part :=
  if a ≤ 4095 then .went (s.setByte a b) else .raised .memoryFault s

/-- Write bytes at `a`, `a + 1`, ... in that order, up to the first that faults (R57 (c)). -/
def storeBytes (a : Nat) : List Byte → State → Part
  | [], s => .went s
  | b :: bs, s => (writeByte a b s).andThen (storeBytes (a + 1) bs)

/-- `V[k] <- MemRead(a, 1)`. -/
def loadReg (k : Nat) (a : Nat) (s : State) : Part :=
  match s.byteAt a with
  | some b => .went (s.setReg (BitVec.ofNat 4 k) b)
  | none => .raised .memoryFault s

/-- Load `todo` registers from `V[k]` on, `V[k]` from `a`, up to the first read that faults (43 R165). -/
def loadRegs : (todo k a : Nat) → State → Part
  | 0, _, _, s => .went s
  | todo + 1, k, a, s => (loadReg k a s).andThen (loadRegs todo (k + 1) (a + 1))

/-! ## Call stack (41 R120, R122) -/

/-- `Push(a)`. -/
def pushReturn (a : Word) (s : State) : Part :=
  if s.sp = s.params.stackDepth then .raised .stackOverflow s
  else if s.sp < s.stack.length then .went { s with stack := s.stack.set s.sp a, sp := s.sp + 1 }
  else .broken .noSuchStackEntry

/-- `PC <- Pop()`. The vacated entry keeps its value (R120). -/
def popIntoPc (s : State) : Part :=
  if s.sp = 0 then .raised .stackUnderflow s
  else
    match s.stack[s.sp - 1]? with
    | some a => .went { s with sp := s.sp - 1, pc := a }
    | none => .broken .noSuchStackEntry

/-! ## Framebuffer (44_display) -/

/-- The pixel at a row and column; off outside the grid. -/
def pixelAt (f : Screen) (row col : Nat) : Bool :=
  if h : row < 32 ∧ col < 64 then (f[row]'h.1)[col]'h.2 else false

/-- The grid with one pixel written; outside the grid nothing is. -/
def paintPixel (f : Screen) (row col : Nat) (b : Bool) : Screen :=
  if h : row < 32 ∧ col < 64 then Vector.set f row (Vector.set (f[row]'h.1) col b h.2) h.1 else f

/-- XOR a set sprite bit into the pixel at a place on the screen: a lit pixel goes off and sets VF, a dark one comes
on (44 R181). -/
def togglePixel (row col : Nat) (s : State) : State :=
  if pixelAt s.fb row col then State.setReg { s with fb := paintPixel s.fb row col false } flagReg 0x01
  else { s with fb := paintPixel s.fb row col true }

/-- A set sprite bit at `(row, col)` under the edge policy: clip drops it past the edge, wrap brings it round (44 R183). -/
def plotPixel (row col : Nat) (s : State) : State :=
  match s.params.spriteEdge with
  | .clip => if col ≤ 63 ∧ row ≤ 31 then togglePixel row col s else s
  | .wrap => togglePixel (row % 32) (col % 64) s

/-- The bits of a sprite row from bit `7 - c` down, `todo` of them, most significant first (44 R182 (b)). -/
def drawBits (b : Byte) (row sx : Nat) : (todo c : Nat) → State → State
  | 0, _, s => s
  | todo + 1, c, s =>
    drawBits b row sx todo (c + 1) (if b.getLsbD (7 - c) then plotPixel row (sx + c) s else s)

/-- Sprite row `r`: read its byte, then draw its eight bits. -/
def drawRow (sx sy r : Nat) (s : State) : Part :=
  match s.byteAt (effectiveAddress s r) with
  | some b => .went (drawBits b (sy + r) sx 8 0 s)
  | none => .raised .memoryFault s

/-- `todo` sprite rows from row `r` on, up to the first read that faults; every row is read, on the screen or not
(44 R182 (e)). -/
def drawRows (sx sy : Nat) : (todo r : Nat) → State → Part
  | 0, _, s => .went s
  | todo + 1, r, s => (drawRow sx sy r s).andThen (drawRows sx sy todo (r + 1))

end Sys2Proof.Machine
end

