-- ==== Sys2Proof/Machine/ControlFlow.lean ====
section
/-! DEFINITION. Control transfer (spec/41_control_flow.md). PC already holds `pc0 + 2` (40 R102). -/

namespace Sys2Proof.Machine

/-- The common form of every skip: PC gains a further 2 when the condition holds (41 R128). -/
def skipWhen (b : Bool) (s : State) : Host.Outcome State Fault Refusal := .next (skipIf b s)

/-- 00EE RET (41 R120). -/
def execRet (x : Nibble) (s : State) : Host.Outcome State Fault Refusal :=
  finish (.ret x) (instructionAddress s) (popIntoPc s)

/-- 1NNN JP nnn (41 R121). -/
def execJp (nnn : Addr) (s : State) : Host.Outcome State Fault Refusal := .next (s.setPc (absoluteTarget nnn))

/-- 2NNN CALL nnn: push the advanced PC, then jump (41 R122). -/
def execCall (nnn : Addr) (s : State) : Host.Outcome State Fault Refusal :=
  finish (.call nnn) (instructionAddress s)
    ((pushReturn s.pc s).andThen fun t => .went (t.setPc (absoluteTarget nnn)))

/-- 3XNN SE Vx, nn (41 R123). -/
def execSeImm (x : Nibble) (nn : Byte) (s : State) : Host.Outcome State Fault Refusal :=
  skipWhen (decide (s.reg x = nn)) s

/-- 4XNN SNE Vx, nn (41 R124). -/
def execSneImm (x : Nibble) (nn : Byte) (s : State) : Host.Outcome State Fault Refusal :=
  skipWhen (decide (s.reg x ≠ nn)) s

/-- 5XY0 SE Vx, Vy (41 R125). -/
def execSeReg (x y : Nibble) (s : State) : Host.Outcome State Fault Refusal :=
  skipWhen (decide (s.reg x = s.reg y)) s

/-- 9XY0 SNE Vx, Vy (41 R126). -/
def execSneReg (x y : Nibble) (s : State) : Host.Outcome State Fault Refusal :=
  skipWhen (decide (s.reg x ≠ s.reg y)) s

/-- BNNN JP V0, nnn (41 R127). -/
def execJpV0 (nnn : Addr) (s : State) : Host.Outcome State Fault Refusal :=
  .next (s.setPc (offsetTarget nnn (s.reg 0)))

end Sys2Proof.Machine
end

