-- ==== Sys2Proof/Machine/Display.lean ====
section
/-! DEFINITION. The framebuffer instructions (spec/44_display.md). -/

namespace Sys2Proof.Machine

/-- 00E0 CLS (44 R180). -/
def execCls (s : State) : Host.Outcome State Fault Refusal := .next { s with fb := blankScreen, dirty := true }

/-- DXYN DRW Vx, Vy, n: the coordinates are read before VF is cleared (44 R182 (d)), and DIRTY is set when every row is
drawn (44 R181). -/
def execDrw (x y n : Nibble) (s : State) : Host.Outcome State Fault Refusal :=
  finish (.drw x y n) (instructionAddress s)
    ((drawRows (startColumn (s.reg x)) (startRow (s.reg y)) n.toNat 0 (s.setReg flagReg 0x00)).andThen
      fun t => .went { t with dirty := true })

end Sys2Proof.Machine
end

