-- ==== Sys2Proof/Machine/IndexMemory.lean ====
section
/-! DEFINITION. The index register and memory (spec/43_index_memory.md). No instruction here but the first three moves I. -/

namespace Sys2Proof.Machine

/-- ANNN LD I, nnn (43 R160). -/
def execLdI (nnn : Addr) (s : State) : Host.Outcome State Fault Refusal := .next (s.setI (absoluteTarget nnn))

/-- FX1E ADD I, Vx: modulo 65536, no flag (43 R161). -/
def execAddI (x : Nibble) (s : State) : Host.Outcome State Fault Refusal :=
  .next (s.setI (s.i + (s.reg x).setWidth 16))

/-- FX29 LD F, Vx (43 R162). -/
def execLdF (x : Nibble) (s : State) : Host.Outcome State Fault Refusal :=
  .next (s.setI (glyphAddress s.params (s.reg x)))

/-- FX33 LD B, Vx (43 R163). -/
def execLdB (x : Nibble) (s : State) : Host.Outcome State Fault Refusal :=
  finish (.ldB x) (instructionAddress s) (storeBytes (effectiveAddress s 0) (decimalDigits (s.reg x)) s)

/-- FX55 LD [I], Vx (43 R164). -/
def execLdMemVx (x : Nibble) (s : State) : Host.Outcome State Fault Refusal :=
  finish (.ldMemVx x) (instructionAddress s) (storeBytes (effectiveAddress s 0) (registersUpTo s x) s)

/-- FX65 LD Vx, [I] (43 R165). -/
def execLdVxMem (x : Nibble) (s : State) : Host.Outcome State Fault Refusal :=
  finish (.ldVxMem x) (instructionAddress s) (loadRegs (x.toNat + 1) 0 (effectiveAddress s 0) s)

end Sys2Proof.Machine
end

