-- ==== Sys2Proof/Machine/KeypadTimers.lean ====
section
/-! DEFINITION. The keypad and timer instructions (spec/45_keypad_timers.md). -/

namespace Sys2Proof.Machine

/-- The common form of EX9E and EXA1: an index above 15 raises KeyIndexFault (45 R206), else skip when key Vx reads
`want`. -/
def keySkip (i : Instr) (x : Nibble) (want : Bool) (s : State) : Host.Outcome State Fault Refusal :=
  finish i (instructionAddress s)
    (if 15 < (s.reg x).toNat then .raised .keyIndexFault s
     else .went (skipIf (keyPressed s (s.reg x).toNat == want) s))

/-- EX9E SKP Vx (45 R200). -/
def execSkp (x : Nibble) (s : State) : Host.Outcome State Fault Refusal := keySkip (.skp x) x true s

/-- EXA1 SKNP Vx (45 R201). -/
def execSknp (x : Nibble) (s : State) : Host.Outcome State Fault Refusal := keySkip (.sknp x) x false s

/-- FX07 LD Vx, DT (45 R202). -/
def execLdVxDt (x : Nibble) (s : State) : Host.Outcome State Fault Refusal := .next (s.setReg x s.dt)

/-- FX0A LD Vx, K: with no key pressed PC goes back to this instruction (45 R203). -/
def execLdVxK (x : Nibble) (s : State) : Host.Outcome State Fault Refusal :=
  match lowestKey s with
  | none => .next (s.setPc (s.pc - 2))
  | some k => .next (s.setReg x (BitVec.ofNat 8 k))

/-- FX15 LD DT, Vx (45 R204). -/
def execLdDtVx (x : Nibble) (s : State) : Host.Outcome State Fault Refusal := .next { s with dt := s.reg x }

/-- FX18 LD ST, Vx (45 R205). -/
def execLdStVx (x : Nibble) (s : State) : Host.Outcome State Fault Refusal := .next { s with st := s.reg x }

end Sys2Proof.Machine
end

