-- ==== Sys2Proof/Machine/LoadAlu.lean ====
section
/-! DEFINITION. Register load, arithmetic, logic, shift and random (spec/42_load_alu.md). The statements of a rule run
in the order written, each on the state the ones before it left, which decides the cases x = F and y = F (R153). -/

namespace Sys2Proof.Machine

/-- `V[x] <- r`, and on. -/
def load (x : Nibble) (r : Byte) (s : State) : Host.Outcome State Fault Refusal := .next (s.setReg x r)

/-- `V[x] <- r`, then `VF <- f`: the flag is written last and stands (8XY4, 8XY5, 8XY7). -/
def loadThenFlag (x : Nibble) (r f : Byte) (s : State) : Host.Outcome State Fault Refusal :=
  .next ((s.setReg x r).setReg flagReg f)

/-- `VF <- f`, then `V[x] <- g V[x]` on the register as it then stands (8XY6, 8XYE). -/
def flagThenShift (x : Nibble) (f : Byte) (g : Byte → Byte) (s : State) : Host.Outcome State Fault Refusal :=
  .next ((s.setReg flagReg f).setReg x (g ((s.setReg flagReg f).reg x)))

/-- 6XNN LD Vx, nn (42 R140). -/
def execLdImm (x : Nibble) (nn : Byte) (s : State) : Host.Outcome State Fault Refusal := load x nn s

/-- 7XNN ADD Vx, nn: no flag (42 R141). -/
def execAddImm (x : Nibble) (nn : Byte) (s : State) : Host.Outcome State Fault Refusal := load x (s.reg x + nn) s

/-- 8XY0 LD Vx, Vy (42 R142). -/
def execLdReg (x y : Nibble) (s : State) : Host.Outcome State Fault Refusal := load x (s.reg y) s

/-- 8XY1 OR Vx, Vy: VF is not written (42 R143). -/
def execOrReg (x y : Nibble) (s : State) : Host.Outcome State Fault Refusal := load x (s.reg x ||| s.reg y) s

/-- 8XY2 AND Vx, Vy: VF is not written (42 R144). -/
def execAndReg (x y : Nibble) (s : State) : Host.Outcome State Fault Refusal := load x (s.reg x &&& s.reg y) s

/-- 8XY3 XOR Vx, Vy: VF is not written (42 R145). -/
def execXorReg (x y : Nibble) (s : State) : Host.Outcome State Fault Refusal := load x (s.reg x ^^^ s.reg y) s

/-- 8XY4 ADD Vx, Vy (42 R146). -/
def execAddReg (x y : Nibble) (s : State) : Host.Outcome State Fault Refusal :=
  loadThenFlag x (s.reg x + s.reg y) (carryFlag (s.reg x) (s.reg y)) s

/-- 8XY5 SUB Vx, Vy (42 R147). -/
def execSubReg (x y : Nibble) (s : State) : Host.Outcome State Fault Refusal :=
  loadThenFlag x (s.reg x - s.reg y) (notBorrowFlag (s.reg x) (s.reg y)) s

/-- 8XY6 SHR Vx: Vy is not read (42 R148). -/
def execShr (x : Nibble) (s : State) : Host.Outcome State Fault Refusal :=
  flagThenShift x (lowBitFlag (s.reg x)) (fun b => b >>> 1) s

/-- 8XY7 SUBN Vx, Vy (42 R149). -/
def execSubnReg (x y : Nibble) (s : State) : Host.Outcome State Fault Refusal :=
  loadThenFlag x (s.reg y - s.reg x) (notBorrowFlag (s.reg y) (s.reg x)) s

/-- 8XYE SHL Vx: Vy is not read (42 R150). -/
def execShl (x : Nibble) (s : State) : Host.Outcome State Fault Refusal :=
  flagThenShift x (highBitFlag (s.reg x)) (fun b => b <<< 1) s

/-- CXNN RND Vx, nn: the byte is this PollStep's RAND input (42 R151). -/
def execRnd (x : Nibble) (nn : Byte) (s : State) : Host.Outcome State Fault Refusal := load x (s.rand &&& nn) s

end Sys2Proof.Machine
end

