-- ==== Sys2Proof/Machine/Tick.lean ====
section
/-! DEFINITION. `Tick`: fetch, advance, decode, execute one instruction (spec/40_fetch_decode_execute.md). -/

namespace Sys2Proof.Machine

/-- Decode the fetched word and execute it, PC being advanced already; an undefined word raises DecodeError (R103). -/
def decodeAndExec (w pc0 : Word) (s : State) : Host.Outcome State Fault Refusal :=
  match decodeWord w with
  | .ok i => exec i s
  | .error _ => .next (raise .decodeError w pc0 s)

/-- `Tick` (R100): nothing when halted (R107); a fetch past the end of memory raises MemoryFault with no word and PC as it
was (R101); else PC advances by 2 (R102) and the instruction runs. -/
def tick (s : State) : Host.Outcome State Fault Refusal :=
  if s.halted then .next s
  else
    match s.wordAt s.pc.toNat with
    | none => .next (raise .memoryFault 0x0000 s.pc s)
    | some w => decodeAndExec w s.pc (s.setPc (s.pc + 2))

end Sys2Proof.Machine
end

