-- ==== Sys2Proof/Machine/Scheduler.lean ====
section
/-! DEFINITION. The three clocks, the timer decrement, the display refresh and one control-loop iteration
(spec/46_scheduler_and_host_loop.md). -/

namespace Sys2Proof.Machine

/-- Which clocks fired in a poll. -/
structure Fired where
  cpu : Bool
  timer : Bool
  display : Bool
  deriving DecidableEq, Repr

/-- `PERIOD = 1000000 div FREQ`, in microseconds (R220). -/
def period (freq : Nat) : Nat := 1000000 / freq

/-- TIMER_HZ and DISPLAY_HZ (00_scope R6). -/
def fixedHz : Nat := 60

/-- A clock fires when a whole period or more has passed since it last fired (R221). -/
def fires (now last : Micros) (freq : Nat) : Bool := decide (period freq ≤ now.toNat - last.toNat)

/-- The clocks that fire at `now` (R221). -/
def firedAt (now : Micros) (s : State) : Fired where
  cpu := fires now s.last.cpu s.params.cpuHz
  timer := fires now s.last.timer fixedHz
  display := fires now s.last.display fixedHz

/-- The host supplies a `now` not less than that of the PollStep or Reset before (R227), and `Poll` requires it to be at
least every last-fire time (R221). -/
def timeInOrder (now : Micros) (s : State) : Bool :=
  decide (s.hostTime.toNat ≤ now.toNat) && decide (s.last.cpu.toNat ≤ now.toNat) && decide (s.last.timer.toNat ≤ now.toNat)
    && decide (s.last.display.toNat ≤ now.toNat)

/-- The last-fire times after a poll: a clock that fired restarts from `now` (R221). -/
def restamp (now : Micros) (f : Fired) (l : Clocks) : Clocks where
  cpu := if f.cpu then now else l.cpu
  timer := if f.timer then now else l.timer
  display := if f.display then now else l.display

/-- The state in which a PollStep's activities run: the inputs sampled, `now` kept for R227, the clocks
restamped (R221, R222). -/
def sample (p : PollInput) (s : State) : State :=
  { s with
    last := restamp p.now (firedAt p.now s) s.last
    keys := p.keys
    rand := p.rand
    hostTime := p.now }

/-- One step down, floored at 0 (R223). -/
def countDown (t : Byte) : Byte := if 0 < t.toNat then t - 1 else t

/-- `DecrementTimers` (R223); nothing when halted (60 R261). -/
def decrementTimers (s : State) : State :=
  if s.halted then s else { s with dt := countDown s.dt, st := countDown s.st }

/-- `Refresh`: present FB and DIRTY on the display port, then clear DIRTY (R224); nothing when halted (60 R261). -/
def refresh (s : State) : State :=
  if s.halted then s else { s with fbOut := s.fb, dirtyOut := s.dirty, dirty := false }

/-- The activities after the Tick: none when it halted the core, else the timer decrement and then the refresh (R222). -/
def afterTick (f : Fired) (s : State) : State :=
  if s.halted then s
  else if f.display then refresh (if f.timer then decrementTimers s else s)
  else if f.timer then decrementTimers s
  else s

/-- Apply `g` to a next state. -/
def mapNext (g : State → State) : Host.Outcome State Fault Refusal → Host.Outcome State Fault Refusal
  | .next s => .next (g s)
  | .fault r => .fault r
  | .refused r => .refused r

/-- `PollStep` (R222): nothing when halted; a `now` that decreases has no result (R227). -/
def pollStep (p : PollInput) (s : State) : Host.Outcome State Fault Refusal :=
  if s.halted then .next s
  else if timeInOrder p.now s then
    mapNext (afterTick (firedAt p.now s))
      (if (firedAt p.now s).cpu then tick (sample p s) else .next (sample p s))
  else .refused .timeWentBack

end Sys2Proof.Machine
end

