-- ==== Sys2Proof/Machine/HostLoop.lean ====
section
/-! DEFINITION. One thing the host does to the core (spec/46 R231), and the placing of an instruction where the next step
fetches it. -/

namespace Sys2Proof.Machine

/-- Carry out the host's next event. A core that is not polled does not change (46 R231). -/
def hostStep (s : State) : Host.Outcome State Fault Refusal :=
  match s.host with
  | [] => .next s
  | .poll p :: rest => pollStep p { s with host := rest }
  | .reset params rom now :: rest => resetCore params rom now rest

/-- The latest time the state knows of: the host's, and the three last-fire times. -/
def latestTime (s : State) : Nat :=
  max s.hostTime.toNat (max s.last.cpu.toNat (max s.last.timer.toNat s.last.display.toNat))

/-- A time, not before any the state knows of, at which a whole CPU period can have passed. -/
def wakeTime (s : State) : Nat := max (latestTime s) (period s.params.cpuHz)

/-- `s` with the two bytes of `w` at PC, high byte first; a PC no word can be fetched from has no place for one. -/
def storeAtPc (w : Word) (s : State) : State :=
  if s.pc.toNat + 1 ≤ 4095 then
    (s.setByte s.pc.toNat (w.extractLsb' 8 8)).setByte (s.pc.toNat + 1) (w.extractLsb' 0 8)
  else s

/-- The state whose next step is a poll in which the CPU clock fires, no key is pressed and RAND is 0, in a running core,
with `w` in memory at PC. LAST[CPU] is moved back only where the poll could not fire otherwise. -/
def placeWord (w : Word) (s : State) : State :=
  { storeAtPc w s with
    halted := false
    errCause := if s.halted then 0 else s.errCause
    errOpcode := if s.halted then 0x0000 else s.errOpcode
    errPc := if s.halted then 0x0000 else s.errPc
    last := { s.last with
      cpu := BitVec.ofNat 64 (min s.last.cpu.toNat (wakeTime s - period s.params.cpuHz)) }
    host := .poll { now := BitVec.ofNat 64 (wakeTime s), keys := 0, rand := 0 } :: s.host }

end Sys2Proof.Machine
end

