-- ==== Sys2Proof/Machine/Step.lean ====
section
/-! DEFINITION. One step of the machine, and an instruction placed where the next step fetches it. -/

namespace Sys2Proof.Machine

/-- One step: the host's next event (spec/46 R231, R222; spec/70 R290). -/
def step (s : State) : Host.Outcome State Fault Refusal := Sys2Proof.Machine.hostStep s

/-- `s` with an instruction, its bits numbered as spec/opcode_table.json numbers them, where the next step fetches, and a
poll that runs it as the host's next event (log 6). -/
def State.withFetchWord (s : State) (nbits w : Nat) : State := Sys2Proof.Machine.placeWord (tableWord nbits w) s

end Sys2Proof.Machine
end

