-- ==== Sys2Proof/Machine/Ports.lean ====
section
/-! DEFINITION. The core's outputs (spec/60_exceptions.md R265, spec/46 R225): functions of the state. FB_OUT and DIRTY_OUT
are the fields fbOut and dirtyOut, held from one Refresh to the next. -/

namespace Sys2Proof.Machine

/-- What the core drives on its ports. -/
structure Outputs where
  fbOut : Screen
  dirtyOut : Bool
  sound : Bool
  stOut : Byte
  haltedOut : Bool
  errCauseOut : BitVec 3
  errOpcodeOut : Word
  errPcOut : Word
  deriving DecidableEq, Repr

/-- The ports (60 R265); SOUND is 1 exactly when ST > 0 (46 R225). -/
def State.outputs (s : State) : Outputs where
  fbOut := s.fbOut
  dirtyOut := s.dirtyOut
  sound := decide (0 < s.st.toNat)
  stOut := s.st
  haltedOut := s.halted
  errCauseOut := s.errCause
  errOpcodeOut := s.errOpcode
  errPcOut := s.errPc

end Sys2Proof.Machine
end

