-- ==== Sys2Proof/Safety.lean ====
section
/-! DEFINITION. The terms claims are made in: what a state leaves unchanged of another (frames), what a halted core
records, the invariant of spec/10_state.md R36, which instruction may write what (10_state section 1), the bits of a
sprite on the screen, and the end of a run (spec/70 R294). -/

namespace Sys2Proof.Machine

/-! ## Frames -/

/-- The pieces of the state beside the V registers and memory. -/
inductive Piece where
  | programCounter
  | index
  | callStack
  | delayTimer
  | soundTimer
  | screen
  | dirtyFlag
  | clocks
  | errorRecord
  | displayPort
  | parameters
  | inputs
  deriving DecidableEq, Repr

/-- `t` holds a piece as `s` does. -/
def Piece.same : Piece → State → State → Prop
  | .programCounter, s, t => t.pc = s.pc
  | .index, s, t => t.i = s.i
  | .callStack, s, t => t.stack = s.stack ∧ t.sp = s.sp
  | .delayTimer, s, t => t.dt = s.dt
  | .soundTimer, s, t => t.st = s.st
  | .screen, s, t => t.fb = s.fb
  | .dirtyFlag, s, t => t.dirty = s.dirty
  | .clocks, s, t => t.last = s.last
  | .errorRecord, s, t =>
    t.halted = s.halted ∧ t.errCause = s.errCause ∧ t.errOpcode = s.errOpcode ∧ t.errPc = s.errPc
  | .displayPort, s, t => t.fbOut = s.fbOut ∧ t.dirtyOut = s.dirtyOut
  | .parameters, s, t => t.params = s.params
  | .inputs, s, t => t.keys = s.keys ∧ t.rand = s.rand ∧ t.hostTime = s.hostTime ∧ t.host = s.host

/-- Every piece but those named is unchanged. -/
def keepsPiecesBut (changed : List Piece) (s t : State) : Prop := ∀ p : Piece, p ∉ changed → p.same s t

/-- Every V register but those named is unchanged. -/
def keepsRegsBut (changed : List Nibble) (s t : State) : Prop := ∀ x : Nibble, x ∉ changed → t.reg x = s.reg x

/-- Every byte of memory outside the `len` bytes from `lo` reads as before. -/
def keepsMemoryOutside (lo len : Nat) (s t : State) : Prop :=
  ∀ a : Nat, a < lo ∨ lo + len ≤ a → t.byteAt a = s.byteAt a

/-- Every byte of memory reads as before. -/
def keepsMemory (s t : State) : Prop := ∀ a : Nat, t.byteAt a = s.byteAt a

/-- Only the named registers and pieces may differ; no byte of memory does. -/
def changesOnly (regs : List Nibble) (pieces : List Piece) (s t : State) : Prop :=
  keepsRegsBut regs s t ∧ keepsPiecesBut pieces s t ∧ keepsMemory s t

/-! ## The halted core (60 R259) -/

/-- `t` is halted with this error record. -/
def haltedWith (code : BitVec 3) (w pc0 : Word) (t : State) : Prop :=
  t.halted = true ∧ t.errCause = code ∧ t.errOpcode = w ∧ t.errPc = pc0

/-! ## The invariant (10_state R36) -/

/-- What holds in every state a run reaches (10_state R36 (a), (b), (d), (e), (f)), with the memory's canonical form, the
stack's size and the parameters' legality; R36 (c) is in the types. -/
structure State.Inv (s : State) : Prop where
  memoryCanonical : s.mem.wf s.params = true
  parametersLegal : s.params.wellFormed = true
  stackSize : s.stack.length = s.params.stackDepth
  spInRange : s.sp ≤ s.params.stackDepth
  pcInRange : s.pc.toNat ≤ 0x10FE
  liveEntries : ∀ k a, k < s.sp → s.stack[k]? = some a → a.toNat ≤ 4096
  firedInThePast : s.last.cpu.toNat ≤ s.hostTime.toNat ∧ s.last.timer.toNat ≤ s.hostTime.toNat ∧
    s.last.display.toNat ≤ s.hostTime.toNat
  causeWhenHalted : s.errCause = 0 ↔ s.halted = false

/-! ## Which instruction may write what (10_state section 1) -/

/-- The instructions that may write a V register, and which: the table of 10_state R21 and R22. -/
def mayWriteReg : Instr → Nibble → Bool
  | .ldImm x _, r | .addImm x _, r | .rnd x _, r => r == x
  | .ldReg x _, r | .orReg x _, r | .andReg x _, r | .xorReg x _, r => r == x
  | .addReg x _, r | .subReg x _, r | .subnReg x _, r | .shr x _, r | .shl x _, r => r == x || r == 0xF
  | .drw _ _ _, r => r == 0xF
  | .ldVxDt x, r | .ldVxK x, r => r == x
  | .ldVxMem x, r => decide (r.toNat ≤ x.toNat)
  | .cls _, _ | .ret _, _ | .jp _, _ | .call _, _ | .seImm _ _, _ | .sneImm _ _, _ | .seReg _ _, _
  | .sneReg _ _, _ | .ldI _, _ | .jpV0 _, _ | .skp _, _ | .sknp _, _ | .ldDtVx _, _ | .ldStVx _, _ | .addI _, _
  | .ldF _, _ | .ldB _, _ | .ldMemVx _, _ => false

/-- The instructions that may write a piece: the columns 'written by' of 10_state section 1, with the fatal conditions of
60 R269 for the error record. PC is counted from the advanced value (40 R102). -/
def mayWritePiece : Instr → Piece → Bool
  | .ret _, p => p == .programCounter || p == .callStack || p == .errorRecord
  | .call _, p => p == .programCounter || p == .callStack || p == .errorRecord
  | .jp _, p | .jpV0 _, p => p == .programCounter
  | .seImm _ _, p | .sneImm _ _, p | .seReg _ _, p | .sneReg _ _, p => p == .programCounter
  | .skp _, p | .sknp _, p => p == .programCounter || p == .errorRecord
  | .ldVxK _, p => p == .programCounter
  | .ldI _, p | .addI _, p | .ldF _, p => p == .index
  | .ldDtVx _, p => p == .delayTimer
  | .ldStVx _, p => p == .soundTimer
  | .cls _, p => p == .screen || p == .dirtyFlag
  | .drw _ _ _, p => p == .screen || p == .dirtyFlag || p == .errorRecord
  | .ldB _, p | .ldMemVx _, p | .ldVxMem _, p => p == .errorRecord
  | .ldImm _ _, _ | .addImm _ _, _ | .ldReg _ _, _ | .orReg _ _, _ | .andReg _ _, _ | .xorReg _ _, _
  | .addReg _ _, _ | .subReg _ _, _ | .shr _ _, _ | .subnReg _ _, _ | .shl _ _, _ | .rnd _ _, _ | .ldVxDt _, _ => false

/-- The instructions that may write memory: FX33 and FX55 (10_state R20). -/
def mayWriteMemory : Instr → Bool
  | .ldB _ | .ldMemVx _ => true
  | .cls _ | .ret _ | .jp _ | .call _ | .seImm _ _ | .sneImm _ _ | .seReg _ _ | .ldImm _ _ | .addImm _ _
  | .ldReg _ _ | .orReg _ _ | .andReg _ _ | .xorReg _ _ | .addReg _ _ | .subReg _ _ | .shr _ _ | .subnReg _ _
  | .shl _ _ | .sneReg _ _ | .ldI _ | .jpV0 _ | .rnd _ _ | .drw _ _ _ | .skp _ | .sknp _ | .ldVxDt _ | .ldVxK _
  | .ldDtVx _ | .ldStVx _ | .addI _ | .ldF _ | .ldVxMem _ => false

/-- The fatal condition an instruction can raise of its own, if any: the matrix of 60 R269. -/
def causeOf : Instr → Option Cause
  | .ret _ => some .stackUnderflow
  | .call _ => some .stackOverflow
  | .skp _ | .sknp _ => some .keyIndexFault
  | .ldB _ | .ldMemVx _ | .ldVxMem _ => some .memoryFault
  | .drw _ _ n => if n = 0 then none else some .memoryFault
  | .cls _ | .jp _ | .seImm _ _ | .sneImm _ _ | .seReg _ _ | .ldImm _ _ | .addImm _ _ | .ldReg _ _ | .orReg _ _
  | .andReg _ _ | .xorReg _ _ | .addReg _ _ | .subReg _ _ | .shr _ _ | .subnReg _ _ | .shl _ _ | .sneReg _ _
  | .ldI _ | .jpV0 _ | .rnd _ _ | .ldVxDt _ | .ldVxK _ | .ldDtVx _ | .ldStVx _ | .addI _ | .ldF _ => none

/-- The instructions that can raise a fatal condition of their own (60 R269). -/
def mayRaise (i : Instr) : Bool := (causeOf i).isSome

/-- The instructions that read the keys (40 R106). -/
def readsKeys : Instr → Bool
  | .skp _ | .sknp _ | .ldVxK _ => true
  | .cls _ | .ret _ | .jp _ | .call _ | .seImm _ _ | .sneImm _ _ | .seReg _ _ | .ldImm _ _ | .addImm _ _
  | .ldReg _ _ | .orReg _ _ | .andReg _ _ | .xorReg _ _ | .addReg _ _ | .subReg _ _ | .shr _ _ | .subnReg _ _
  | .shl _ _ | .sneReg _ _ | .ldI _ | .jpV0 _ | .rnd _ _ | .drw _ _ _ | .ldVxDt _ | .ldDtVx _ | .ldStVx _
  | .addI _ | .ldF _ | .ldB _ | .ldMemVx _ | .ldVxMem _ => false

/-- The instruction that reads the random byte (40 R106). -/
def readsRand : Instr → Bool
  | .rnd _ _ => true
  | .cls _ | .ret _ | .jp _ | .call _ | .seImm _ _ | .sneImm _ _ | .seReg _ _ | .ldImm _ _ | .addImm _ _
  | .ldReg _ _ | .orReg _ _ | .andReg _ _ | .xorReg _ _ | .addReg _ _ | .subReg _ _ | .shr _ _ | .subnReg _ _
  | .shl _ _ | .sneReg _ _ | .ldI _ | .jpV0 _ | .drw _ _ _ | .skp _ | .sknp _ | .ldVxDt _ | .ldVxK _
  | .ldDtVx _ | .ldStVx _ | .addI _ | .ldF _ | .ldB _ | .ldMemVx _ | .ldVxMem _ => false

/-! ## Sprites on the screen (44 R181 to R184) -/

/-- Where a pixel lies in a sprite drawn from `(sx, sy)`: its row and column in the sprite, if any (44 R182, R183). -/
def spriteOffset (edge : SpriteEdge) (sx sy row col : Nat) : Option (Nat × Nat) :=
  match edge with
  | .clip => if sy ≤ row ∧ sx ≤ col then some (row - sy, col - sx) else none
  | .wrap => some ((row + 32 - sy) % 32, (col + 64 - sx) % 64)

/-- Whether the first `n` rows of the sprite at I, drawn from `(sx, sy)`, have a set bit on the pixel. -/
def spriteBit (s : State) (sx sy n row col : Nat) : Bool :=
  match spriteOffset s.params.spriteEdge sx sy row col with
  | none => false
  | some (r, c) =>
    if r < n ∧ c < 8 then
      match s.byteAt (s.i.toNat + r) with
      | some b => b.getLsbD (7 - c)
      | none => false
    else false

/-- Some set sprite bit lies on a lit pixel (44 R184). -/
def spriteCollides (s : State) (sx sy n : Nat) : Prop :=
  ∃ row col, row < 32 ∧ col < 64 ∧ spriteBit s sx sy n row col = true ∧ pixelAt s.fb row col = true

/-! ## The end of a run (70 R294) -/

/-- PC is at a jump to itself in a running core. -/
def State.atEnd (s : State) : Prop :=
  s.halted = false ∧ ∃ nnn : Addr, s.pc.toNat = nnn.toNat ∧ s.wordAt s.pc.toNat = some (encode (.jp nnn))

/-! ## Polls -/

/-- The host's next event is the poll `p`, which the running core can take: `now` is not before the host's last time, nor before
a last-fire time (46 R227, R221). -/
def pollPending (p : PollInput) (rest : List HostEvent) (s : State) : Prop :=
  s.host = .poll p :: rest ∧ s.halted = false ∧ s.hostTime.toNat ≤ p.now.toNat ∧ s.last.cpu.toNat ≤ p.now.toNat ∧ s.last.timer.toNat ≤ p.now.toNat ∧
    s.last.display.toNat ≤ p.now.toNat

/-- At `now` a period of `freq` hertz or more has passed since `last` (46 R220, R221). -/
abbrev due (now last : Micros) (freq : Nat) : Prop := last.toNat + 1000000 / freq ≤ now.toNat

end Sys2Proof.Machine
end

