-- ==== Sys2Proof/Certificates/Slice0/Obligations.lean ====
section
/-! DEFINITION. The statements about CHIP8-CORE, from the numbered rules of spec/. In `exec i s` PC already holds the
address after the instruction (spec/40 R102): `s.pc` is `pc0 + 2`, and an instruction that 'leaves PC' keeps it. -/

open Sys2Proof Sys2Proof.Machine

/-! ## Encoding -/

/-- Laying out the word of any instruction in memory order and decoding it gives the instruction back, with the bytes
that follow (30 R80 to R85). Every term of Instr is well formed: its fields have the widths of R81. -/
def Obligations.DecodeOfEncodeIsTheInstruction : Prop :=
  ∀ (i : Instr) (rest : List Byte), decode (bytesOfWord (encode i) ++ rest) = .ok (i, rest)

/-- A word that decodes is the word of the instruction it decodes to: no bit of its fields (30 R81) is dropped. The
model's own, DEDUCED (log 17): the fields a row ignores (30 R88: x of 00E0 and 00EE, y of 8XY6 and 8XYE) come back too,
because Instr keeps them as operands. -/
def Obligations.EncodeOfDecodeIsTheWord : Prop :=
  ∀ (w : Word) (i : Instr), decodeWord w = .ok i → encode i = w

/-- The masks and matches of the opcode map decide which row a word is (30 R85: 'word w is the instruction exactly when
(w AND mask) = match'), so no two rows overlap (R84). -/
def Obligations.OpcodeMapDecidesTheRow : Prop :=
  ∀ (w : Word) (r : OpcodeRow), r ∈ opcodeMap →
    (w &&& r.mask = r.value ↔ ∃ i, decodeWord w = .ok i ∧ i.rowNumber = r.number)

/-- The undefined words are exactly those of the table of 30 R86, and each is rejected by name. -/
def Obligations.UndefinedWordsAreExactlyTheTable : Prop :=
  ∀ w : Word, decodeWord w = .error (.undefinedWord w) ↔
    (opField w = 0x0 ∧ nnField w ≠ 0xE0 ∧ nnField w ≠ 0xEE) ∨
    (opField w = 0x5 ∧ nField w ≠ 0) ∨
    (opField w = 0x8 ∧ nField w ∈ [0x8, 0x9, 0xA, 0xB, 0xC, 0xD, 0xF]) ∨
    (opField w = 0x9 ∧ nField w ≠ 0) ∨
    (opField w = 0xE ∧ nnField w ≠ 0x9E ∧ nnField w ≠ 0xA1) ∨
    (opField w = 0xF ∧ nnField w ∉ [0x07, 0x0A, 0x15, 0x18, 0x1E, 0x29, 0x33, 0x55, 0x65])

/-- The words of 30 R92 and of the examples of files 41 to 45 stand for the instructions the spec says. -/
def Obligations.SampleWordsDecodeAsTheSpecSays : Prop :=
  decodeWord 0x6A3F = .ok (.ldImm 0xA 0x3F) ∧ decodeWord 0x1300 = .ok (.jp 0x300) ∧
  decodeWord 0x00E0 = .ok (.cls 0) ∧ decodeWord 0x3244 = .ok (.seImm 2 0x44) ∧
  decodeWord 0xD125 = .ok (.drw 1 2 5) ∧ decodeWord 0xF155 = .ok (.ldMemVx 1) ∧
  decodeWord 0x8124 = .ok (.addReg 1 2) ∧ decodeWord 0xF10A = .ok (.ldVxK 1) ∧
  decodeWord 0xE59E = .ok (.skp 5)

/-! ## Fetch, decode, step -/

/-- A poll at which the CPU clock is due, of a running core whose word at PC decodes, runs that instruction from the
state with the inputs sampled, the due clocks restamped and PC advanced by 2; then come the timer decrement and the
refresh that are due (46 R222, 40 R100, R102). -/
def Obligations.StepRunsTheDecodedInstruction : Prop :=
  ∀ (s : State) (p : PollInput) (rest : List HostEvent) (w : Word) (i : Instr),
    pollPending p rest s → due p.now s.last.cpu s.params.cpuHz → s.wordAt s.pc.toNat = some w → decodeWord w = .ok i →
    step s = mapNext (afterTick (firedAt p.now s)) (exec i ((sample p { s with host := rest }).setPc (s.pc + 2)))

/-- Two bytes are read as one word, the lower address high (20 R55), at any parity (20 R58, the spec's decision D5, log
16); past address 4095 there is no word. -/
def Obligations.FetchReadsTwoBytesBigEndian : Prop :=
  ∀ (s : State) (a : Nat),
    (4095 < a + 1 → s.wordAt a = none) ∧
    (a + 1 ≤ 4095 → ∃ w hi lo, s.wordAt a = some w ∧ s.byteAt a = some hi ∧ s.byteAt (a + 1) = some lo ∧
      w.toNat = hi.toNat * 256 + lo.toNat)

/-- A fetch with PC above 4094 raises MemoryFault with ERR_PC = PC and ERR_OPCODE = 0, and leaves PC (40 R101; the error
record and the PC left are the spec's decision D28, the code D15: 60 R250, R259; log 8). -/
def Obligations.FetchPastTheEndHalts : Prop :=
  ∀ s : State, s.halted = false → 4094 < s.pc.toNat →
    ∃ t, tick s = .next t ∧ haltedWith 2 0x0000 s.pc t ∧ changesOnly [] [.errorRecord] s t

/-- An undefined word raises DecodeError with ERR_OPCODE the word and ERR_PC = pc0; nothing but the PC advance has
happened (40 R103; the form of the error record is the spec's decisions D15 and D16: 60 R250, R259; log 8). -/
def Obligations.UndefinedWordHalts : Prop :=
  ∀ (s : State) (w : Word) (r : Reject), s.halted = false → s.wordAt s.pc.toNat = some w → decodeWord w = .error r →
    ∃ t, tick s = .next t ∧ haltedWith 1 w s.pc t ∧ t.pc = s.pc + 2 ∧
      changesOnly [] [.programCounter, .errorRecord] s t

/-- While halted, Tick, PollStep, DecrementTimers and Refresh change nothing (60 R261, 40 R107; the spec's
decision D18), and a legal Reset leaves the halted state. -/
def Obligations.HaltedCoreLeavesOnlyByReset : Prop :=
  ∀ s : State, s.halted = true →
    tick s = .next s ∧ (∀ p, pollStep p s = .next s) ∧ decrementTimers s = s ∧ refresh s = s ∧
    (∀ params rom now rest, s.host = .reset params rom now :: rest → params.wellFormed = true → rom.length ≤ 3584 →
      ∃ t, step s = .next t ∧ t.halted = false ∧ t.errCause = 0)

/-! ## Control transfer -/

/-- RET (41 R120): with an empty stack StackUnderflow and no change but the error record; else SP drops by 1 and PC
takes the entry there, which keeps its value. The form of the error record is the spec's decisions D15 and D16 (60 R250,
R259; log 8, log 18). -/
def Obligations.RetPopsTheReturnAddress : Prop :=
  ∀ (x : Nibble) (s : State),
    (s.sp = 0 → ∃ t, exec (.ret x) s = .next t ∧ haltedWith 3 (encode (.ret x)) (s.pc - 2) t ∧
      changesOnly [] [.errorRecord] s t) ∧
    (∀ a, 0 < s.sp → s.stack[s.sp - 1]? = some a → ∃ t, exec (.ret x) s = .next t ∧ t.pc = a ∧ t.sp = s.sp - 1 ∧
      t.stack = s.stack ∧ changesOnly [] [.programCounter, .callStack] s t)

/-- CALL (41 R122): with a full stack StackOverflow and no change but the error record; else the advanced PC is pushed
and PC takes nnn. StackOverflow and the depth are the spec's decision D6, the form of the error record D15 and D16 (60
R250, R259; log 8, log 18). -/
def Obligations.CallPushesTheAdvancedPc : Prop :=
  ∀ (nnn : Addr) (s : State),
    (s.sp = s.params.stackDepth → ∃ t, exec (.call nnn) s = .next t ∧
      haltedWith 4 (encode (.call nnn)) (s.pc - 2) t ∧ changesOnly [] [.errorRecord] s t) ∧
    (s.sp ≠ s.params.stackDepth → s.sp < s.stack.length → ∃ t, exec (.call nnn) s = .next t ∧
      t.pc.toNat = nnn.toNat ∧ t.sp = s.sp + 1 ∧ t.stack[s.sp]? = some s.pc ∧
      (∀ k, k ≠ s.sp → t.stack[k]? = s.stack[k]?) ∧ changesOnly [] [.programCounter, .callStack] s t)

/-- A return, run from any state that has the stack a call left, lands after the call and restores SP (41 R120, R122). -/
def Obligations.ReturnLandsAfterTheCall : Prop :=
  ∀ (nnn : Addr) (x : Nibble) (s : State), s.sp ≠ s.params.stackDepth → s.sp < s.stack.length →
    ∃ t, exec (.call nnn) s = .next t ∧
      ∀ u : State, u.stack = t.stack → u.sp = t.sp → ∃ v, exec (.ret x) u = .next v ∧ v.pc = s.pc ∧ v.sp = s.sp

/-- JP (41 R121): PC = nnn, whatever the state; nothing else changes. -/
def Obligations.JumpSetsPc : Prop :=
  ∀ (nnn : Addr) (s : State), ∃ t, exec (.jp nnn) s = .next t ∧ t.pc.toNat = nnn.toNat ∧
    changesOnly [] [.programCounter] s t

/-- JP V0 (41 R127): PC = nnn + V0, the exact sum; nothing else changes. -/
def Obligations.OffsetJumpAddsV0Exactly : Prop :=
  ∀ (nnn : Addr) (s : State), ∃ t, exec (.jpV0 nnn) s = .next t ∧ t.pc.toNat = nnn.toNat + (s.reg 0).toNat ∧
    changesOnly [] [.programCounter] s t

/-- SE Vx, nn and SNE Vx, nn (41 R123, R124): PC gains 2 when Vx = nn, respectively when not; nothing else changes. -/
def Obligations.ImmediateSkips : Prop :=
  ∀ (x : Nibble) (nn : Byte) (s : State),
    (∃ t, exec (.seImm x nn) s = .next t ∧ (s.reg x = nn → t.pc = s.pc + 2) ∧ (s.reg x ≠ nn → t.pc = s.pc) ∧
      changesOnly [] [.programCounter] s t) ∧
    (∃ t, exec (.sneImm x nn) s = .next t ∧ (s.reg x ≠ nn → t.pc = s.pc + 2) ∧ (s.reg x = nn → t.pc = s.pc) ∧
      changesOnly [] [.programCounter] s t)

/-- SE Vx, Vy and SNE Vx, Vy (41 R125, R126). -/
def Obligations.RegisterSkips : Prop :=
  ∀ (x y : Nibble) (s : State),
    (∃ t, exec (.seReg x y) s = .next t ∧ (s.reg x = s.reg y → t.pc = s.pc + 2) ∧ (s.reg x ≠ s.reg y → t.pc = s.pc) ∧
      changesOnly [] [.programCounter] s t) ∧
    (∃ t, exec (.sneReg x y) s = .next t ∧ (s.reg x ≠ s.reg y → t.pc = s.pc + 2) ∧ (s.reg x = s.reg y → t.pc = s.pc) ∧
      changesOnly [] [.programCounter] s t)

/-! ## Load, arithmetic, logic, shift, random -/

/-- LD Vx, nn (42 R140). -/
def Obligations.LoadImmediateSetsVx : Prop :=
  ∀ (x : Nibble) (nn : Byte) (s : State), ∃ t, exec (.ldImm x nn) s = .next t ∧ t.reg x = nn ∧ changesOnly [x] [] s t

/-- ADD Vx, nn (42 R141): modulo 256, no flag. -/
def Obligations.AddImmediateWrapsWithoutFlag : Prop :=
  ∀ (x : Nibble) (nn : Byte) (s : State), ∃ t, exec (.addImm x nn) s = .next t ∧
    (t.reg x).toNat = ((s.reg x).toNat + nn.toNat) % 256 ∧ changesOnly [x] [] s t

/-- LD Vx, Vy (42 R142). -/
def Obligations.MoveCopiesVy : Prop :=
  ∀ (x y : Nibble) (s : State), ∃ t, exec (.ldReg x y) s = .next t ∧ t.reg x = s.reg y ∧ changesOnly [x] [] s t

/-- OR, AND, XOR of registers (42 R143 to R145): bitwise; VF is not written (the spec's decision D36). -/
def Obligations.LogicWritesVxAlone : Prop :=
  ∀ (x y : Nibble) (s : State),
    (∃ t, exec (.orReg x y) s = .next t ∧
      (∀ k, (t.reg x).getLsbD k = ((s.reg x).getLsbD k || (s.reg y).getLsbD k)) ∧ changesOnly [x] [] s t) ∧
    (∃ t, exec (.andReg x y) s = .next t ∧
      (∀ k, (t.reg x).getLsbD k = ((s.reg x).getLsbD k && (s.reg y).getLsbD k)) ∧ changesOnly [x] [] s t) ∧
    (∃ t, exec (.xorReg x y) s = .next t ∧
      (∀ k, (t.reg x).getLsbD k = ((s.reg x).getLsbD k ^^ (s.reg y).getLsbD k)) ∧ changesOnly [x] [] s t)

/-- ADD Vx, Vy (42 R146): the sum modulo 256, then VF = 1 if the exact sum is above 255, else 0; where x = F the carry
stands. -/
def Obligations.AddSetsVxThenCarry : Prop :=
  ∀ (x y : Nibble) (s : State), ∃ t, exec (.addReg x y) s = .next t ∧
    (x ≠ 0xF → (t.reg x).toNat = ((s.reg x).toNat + (s.reg y).toNat) % 256) ∧
    (255 < (s.reg x).toNat + (s.reg y).toNat → t.reg 0xF = 0x01) ∧
    ((s.reg x).toNat + (s.reg y).toNat ≤ 255 → t.reg 0xF = 0x00) ∧ changesOnly [x, 0xF] [] s t

/-- SUB Vx, Vy (42 R147): the difference modulo 256, then VF = 1 exactly when Vx ≥ Vy before; where x = F the flag
stands. -/
def Obligations.SubtractSetsVxThenNotBorrow : Prop :=
  ∀ (x y : Nibble) (s : State), ∃ t, exec (.subReg x y) s = .next t ∧
    (x ≠ 0xF → ((t.reg x).toNat : Int) = ((s.reg x).toNat - (s.reg y).toNat : Int) % 256) ∧
    ((s.reg y).toNat ≤ (s.reg x).toNat → t.reg 0xF = 0x01) ∧
    ((s.reg x).toNat < (s.reg y).toNat → t.reg 0xF = 0x00) ∧ changesOnly [x, 0xF] [] s t

/-- SUBN Vx, Vy (42 R149): Vy - Vx modulo 256, then VF = 1 exactly when Vy ≥ Vx before; where x = F the flag stands. -/
def Obligations.ReverseSubtractSetsVxThenNotBorrow : Prop :=
  ∀ (x y : Nibble) (s : State), ∃ t, exec (.subnReg x y) s = .next t ∧
    (x ≠ 0xF → ((t.reg x).toNat : Int) = ((s.reg y).toNat - (s.reg x).toNat : Int) % 256) ∧
    ((s.reg x).toNat ≤ (s.reg y).toNat → t.reg 0xF = 0x01) ∧
    ((s.reg y).toNat < (s.reg x).toNat → t.reg 0xF = 0x00) ∧ changesOnly [x, 0xF] [] s t

/-- SHR Vx (42 R148), for every y: VF = bit 0 of Vx, then Vx halves; where x = F the flag is shifted too and VF ends 0
(R153, the spec's decision D11, log 15). -/
def Obligations.ShiftRightSetsFlagThenHalves : Prop :=
  ∀ (x y : Nibble) (s : State), ∃ t, exec (.shr x y) s = .next t ∧
    (x ≠ 0xF → (t.reg x).toNat = (s.reg x).toNat / 2 ∧ (t.reg 0xF).toNat = (s.reg x).toNat % 2) ∧
    (x = 0xF → t.reg 0xF = 0x00) ∧ changesOnly [x, 0xF] [] s t

/-- SHL Vx (42 R150), for every y: VF = bit 7 of Vx, then Vx doubles modulo 256; where x = F the flag is doubled too and
VF ends 2 or 0 (R153, the spec's decision D11, log 15). -/
def Obligations.ShiftLeftSetsFlagThenDoubles : Prop :=
  ∀ (x y : Nibble) (s : State), ∃ t, exec (.shl x y) s = .next t ∧
    (x ≠ 0xF → (t.reg x).toNat = (s.reg x).toNat * 2 % 256 ∧ (t.reg 0xF).toNat = (s.reg x).toNat / 128) ∧
    (x = 0xF → (128 ≤ (s.reg x).toNat → t.reg 0xF = 0x02) ∧ ((s.reg x).toNat < 128 → t.reg 0xF = 0x00)) ∧
    changesOnly [x, 0xF] [] s t

/-- RND Vx, nn (42 R151): the RAND input AND nn, whatever the input is. That the byte is an input is the spec's decision
D22. -/
def Obligations.RandomByteIsMasked : Prop :=
  ∀ (x : Nibble) (nn : Byte) (s : State), ∃ t, exec (.rnd x nn) s = .next t ∧
    (∀ k, (t.reg x).getLsbD k = (s.rand.getLsbD k && nn.getLsbD k)) ∧ changesOnly [x] [] s t

/-! ## Index register and memory -/

/-- LD I, nnn (43 R160). -/
def Obligations.LoadIndexSetsI : Prop :=
  ∀ (nnn : Addr) (s : State), ∃ t, exec (.ldI nnn) s = .next t ∧ t.i.toNat = nnn.toNat ∧ changesOnly [] [.index] s t

/-- ADD I, Vx (43 R161): modulo 65536 (the spec's decision D7), no flag. -/
def Obligations.AddIndexWrapsAt65536 : Prop :=
  ∀ (x : Nibble) (s : State), ∃ t, exec (.addI x) s = .next t ∧
    t.i.toNat = (s.i.toNat + (s.reg x).toNat) % 65536 ∧ changesOnly [] [.index] s t

/-- LD F, Vx (43 R162): FONT_BASE + 5 * Vx, the whole byte (the spec's decision D34), exact for every legal
FONT_BASE (log 12). -/
def Obligations.FontIndexIsBasePlusFiveVx : Prop :=
  ∀ (x : Nibble) (s : State), s.params.fontFits = true → ∃ t, exec (.ldF x) s = .next t ∧
    t.i.toNat = s.params.fontBase + 5 * (s.reg x).toNat ∧ changesOnly [] [.index] s t

/-- LD B, Vx (43 R163): the three digits at I, I + 1, I + 2. Where one of the addresses is above 4095 MemoryFault, with
the digits before it written (60 R260, 20 R57: the spec's decisions D8 and D17; the error record D15 and D16: 60 R250,
R259; log 8, log 18). Memory is in its canonical form. -/
def Obligations.DecimalDigitsAreStored : Prop :=
  ∀ (x : Nibble) (s : State), s.mem.wf s.params = true →
    (s.i.toNat + 2 ≤ 4095 → ∃ t d0 d1 d2, exec (.ldB x) s = .next t ∧
      t.byteAt s.i.toNat = some d0 ∧ t.byteAt (s.i.toNat + 1) = some d1 ∧ t.byteAt (s.i.toNat + 2) = some d2 ∧
      d0.toNat = (s.reg x).toNat / 100 ∧ d1.toNat = (s.reg x).toNat / 10 % 10 ∧ d2.toNat = (s.reg x).toNat % 10 ∧
      keepsRegsBut [] s t ∧ keepsPiecesBut [] s t ∧ keepsMemoryOutside s.i.toNat 3 s t) ∧
    (4095 < s.i.toNat + 2 → ∃ t, exec (.ldB x) s = .next t ∧ haltedWith 2 (encode (.ldB x)) (s.pc - 2) t ∧
      (s.i.toNat ≤ 4095 → ∃ d, t.byteAt s.i.toNat = some d ∧ d.toNat = (s.reg x).toNat / 100) ∧
      (s.i.toNat + 1 ≤ 4095 → ∃ d, t.byteAt (s.i.toNat + 1) = some d ∧ d.toNat = (s.reg x).toNat / 10 % 10) ∧
      keepsRegsBut [] s t ∧ keepsPiecesBut [.errorRecord] s t ∧ keepsMemoryOutside s.i.toNat 3 s t)

/-- LD [I], Vx (43 R164): V0 to Vx at I to I + x, I unchanged (the spec's decision D35). Where an address is above 4095
MemoryFault, with the bytes before it written (60 R260, D17; the error record D15 and D16: 60 R250, R259; log 8, log
18). Memory is in its canonical form. -/
def Obligations.RegistersAreStored : Prop :=
  ∀ (x : Nibble) (s : State), s.mem.wf s.params = true →
    (s.i.toNat + x.toNat ≤ 4095 → ∃ t, exec (.ldMemVx x) s = .next t ∧
      (∀ k : Nibble, k.toNat ≤ x.toNat → t.byteAt (s.i.toNat + k.toNat) = some (s.reg k)) ∧
      keepsRegsBut [] s t ∧ keepsPiecesBut [] s t ∧ keepsMemoryOutside s.i.toNat (x.toNat + 1) s t) ∧
    (4095 < s.i.toNat + x.toNat → ∃ t, exec (.ldMemVx x) s = .next t ∧
      haltedWith 2 (encode (.ldMemVx x)) (s.pc - 2) t ∧
      (∀ k : Nibble, k.toNat ≤ x.toNat → s.i.toNat + k.toNat ≤ 4095 →
        t.byteAt (s.i.toNat + k.toNat) = some (s.reg k)) ∧
      keepsRegsBut [] s t ∧ keepsPiecesBut [.errorRecord] s t ∧ keepsMemoryOutside s.i.toNat (x.toNat + 1) s t)

/-- LD Vx, [I] (43 R165): V0 to Vx from I to I + x, I and memory unchanged, the registers above Vx untouched. Where an
address is above 4095 MemoryFault, with the registers before it loaded (60 R260, the spec's decision D17; the error
record D15 and D16: 60 R250, R259; log 8, log 18). -/
def Obligations.RegistersAreLoaded : Prop :=
  ∀ (x : Nibble) (s : State),
    (s.i.toNat + x.toNat ≤ 4095 → ∃ t, exec (.ldVxMem x) s = .next t ∧
      (∀ k : Nibble, k.toNat ≤ x.toNat → s.byteAt (s.i.toNat + k.toNat) = some (t.reg k)) ∧
      (∀ k : Nibble, x.toNat < k.toNat → t.reg k = s.reg k) ∧ keepsPiecesBut [] s t ∧ keepsMemory s t) ∧
    (4095 < s.i.toNat + x.toNat → ∃ t, exec (.ldVxMem x) s = .next t ∧
      haltedWith 2 (encode (.ldVxMem x)) (s.pc - 2) t ∧
      (∀ k : Nibble, k.toNat ≤ x.toNat → s.i.toNat + k.toNat ≤ 4095 → s.byteAt (s.i.toNat + k.toNat) = some (t.reg k)) ∧
      (∀ k : Nibble, 4095 < s.i.toNat + k.toNat ∨ x.toNat < k.toNat → t.reg k = s.reg k) ∧
      keepsPiecesBut [.errorRecord] s t ∧ keepsMemory s t)

/-- The source's round trip (43 R165): a load of V0 to Vx, run from any state with the memory, the parameters and the I
that a store of V0 to Vx left, restores those registers. -/
def Obligations.StoreThenLoadRestoresTheRegisters : Prop :=
  ∀ (x : Nibble) (s : State), s.mem.wf s.params = true → s.i.toNat + x.toNat ≤ 4095 →
    ∃ t, exec (.ldMemVx x) s = .next t ∧
      ∀ u : State, u.mem = t.mem → u.params = t.params → u.i = t.i →
        ∃ v, exec (.ldVxMem x) u = .next v ∧ ∀ k : Nibble, k.toNat ≤ x.toNat → v.reg k = s.reg k

/-- A store of V0 and V1 is what the next fetch from there sees, V0 as the high-order byte (20 R60, R64). -/
def Obligations.StoredBytesAreTheNextFetch : Prop :=
  ∀ (x : Nibble) (s : State), s.mem.wf s.params = true → 1 ≤ x.toNat → s.i.toNat + x.toNat ≤ 4095 →
    ∃ t w, exec (.ldMemVx x) s = .next t ∧ t.wordAt s.i.toNat = some w ∧
      w.toNat = (s.reg 0).toNat * 256 + (s.reg 1).toNat

/-! ## Framebuffer -/

/-- CLS (44 R180), for every x: all pixels off, DIRTY set, VF and the rest unchanged. -/
def Obligations.ClearScreenTurnsEveryPixelOff : Prop :=
  ∀ (x : Nibble) (s : State), ∃ t, exec (.cls x) s = .next t ∧
    (∀ row col, row < 32 → col < 64 → pixelAt t.fb row col = false) ∧ t.dirty = true ∧
    changesOnly [] [.screen, .dirtyFlag] s t

/-- DRW (44 R181 to R183) where every sprite row can be read: under either edge policy the sprite's bits are XORed into
the pixels they land on, DIRTY is set, and nothing but FB, DIRTY and VF changes. The edge policies and the half-open
range of rows are the spec's decisions D9 and D29. -/
def Obligations.DrawXorsTheSprite : Prop :=
  ∀ (x y n : Nibble) (s : State), n = 0 ∨ s.i.toNat + n.toNat ≤ 4096 →
    ∃ t, exec (.drw x y n) s = .next t ∧
      (∀ row col, row < 32 → col < 64 → pixelAt t.fb row col =
        (pixelAt s.fb row col ^^ spriteBit s ((s.reg x).toNat % 64) ((s.reg y).toNat % 32) n.toNat row col)) ∧
      t.dirty = true ∧ changesOnly [0xF] [.screen, .dirtyFlag] s t

/-- DRW's collision flag (44 R184): VF is 1 exactly when a set sprite bit lands on a lit pixel, else 0. Coordinates are
taken from the old VF where x or y is F (44 R182 (d), the spec's decision D10, log 16). -/
def Obligations.DrawReportsCollision : Prop :=
  ∀ (x y n : Nibble) (s : State), n = 0 ∨ s.i.toNat + n.toNat ≤ 4096 →
    ∃ t, exec (.drw x y n) s = .next t ∧
      (spriteCollides s ((s.reg x).toNat % 64) ((s.reg y).toNat % 32) n.toNat → t.reg 0xF = 0x01) ∧
      (¬ spriteCollides s ((s.reg x).toNat % 64) ((s.reg y).toNat % 32) n.toNat → t.reg 0xF = 0x00)

/-- DRW where a sprite row lies past address 4095 (44 R181, 60 R260): MemoryFault, with the rows before it drawn, their
collision in VF, and DIRTY as it was (the spec's decision D17; the error record D15 and D16: 60 R250, R259; log 8, log
18). -/
def Obligations.DrawFaultKeepsTheRowsDrawn : Prop :=
  ∀ (x y n : Nibble) (s : State), n ≠ 0 → 4096 < s.i.toNat + n.toNat →
    ∃ t, exec (.drw x y n) s = .next t ∧ haltedWith 2 (encode (.drw x y n)) (s.pc - 2) t ∧
      (∀ row col, row < 32 → col < 64 → pixelAt t.fb row col = (pixelAt s.fb row col ^^
        spriteBit s ((s.reg x).toNat % 64) ((s.reg y).toNat % 32) (4096 - s.i.toNat) row col)) ∧
      (spriteCollides s ((s.reg x).toNat % 64) ((s.reg y).toNat % 32) (4096 - s.i.toNat) → t.reg 0xF = 0x01) ∧
      (¬ spriteCollides s ((s.reg x).toNat % 64) ((s.reg y).toNat % 32) (4096 - s.i.toNat) → t.reg 0xF = 0x00) ∧
      changesOnly [0xF] [.screen, .errorRecord] s t

/-- Drawing the same sprite at the same place twice restores FB (44 R185 (a)); the second draw sets VF = 1 exactly when
some pixel of the sprite was off before the first (by R184: the rule's own sentence leaves out the pixels that were lit,
log 24). -/
def Obligations.DrawingTwiceRestoresTheScreen : Prop :=
  ∀ (x y n : Nibble) (s : State), n = 0 ∨ s.i.toNat + n.toNat ≤ 4096 →
    ∃ t, exec (.drw x y n) s = .next t ∧
      ∀ u : State, u.fb = t.fb → u.i = s.i → u.mem = s.mem → u.params = s.params →
        u.reg x = s.reg x → u.reg y = s.reg y →
        ∃ v, exec (.drw x y n) u = .next v ∧ v.fb = s.fb ∧
          (v.reg 0xF = 0x01 ↔ ∃ row col, row < 32 ∧ col < 64 ∧
            spriteBit s ((s.reg x).toNat % 64) ((s.reg y).toNat % 32) n.toNat row col = true ∧
            pixelAt s.fb row col = false)

/-! ## Keypad and timers -/

/-- SKP and SKNP (45 R200, R201, R206): an index above 15 raises KeyIndexFault (the spec's decision D13) with no other
change; else PC gains 2 when the key is pressed, respectively when it is not. The form of the error record is the spec's
decisions D15 and D16 (60 R250, R259; log 8, log 18). -/
def Obligations.KeySkips : Prop :=
  ∀ (x : Nibble) (s : State),
    (15 < (s.reg x).toNat →
      (∃ t, exec (.skp x) s = .next t ∧ haltedWith 5 (encode (.skp x)) (s.pc - 2) t ∧
        changesOnly [] [.errorRecord] s t) ∧
      (∃ t, exec (.sknp x) s = .next t ∧ haltedWith 5 (encode (.sknp x)) (s.pc - 2) t ∧
        changesOnly [] [.errorRecord] s t)) ∧
    ((s.reg x).toNat ≤ 15 →
      (∃ t, exec (.skp x) s = .next t ∧ (s.keys.getLsbD (s.reg x).toNat = true → t.pc = s.pc + 2) ∧
        (s.keys.getLsbD (s.reg x).toNat = false → t.pc = s.pc) ∧ changesOnly [] [.programCounter] s t) ∧
      (∃ t, exec (.sknp x) s = .next t ∧ (s.keys.getLsbD (s.reg x).toNat = false → t.pc = s.pc + 2) ∧
        (s.keys.getLsbD (s.reg x).toNat = true → t.pc = s.pc) ∧ changesOnly [] [.programCounter] s t))

/-- LD Vx, K (45 R203): with no key pressed PC goes back by 2 and nothing else changes; else Vx takes the least pressed
key (the spec's decision D12) and PC stays. -/
def Obligations.WaitForKeyTakesTheLeastKey : Prop :=
  ∀ (x : Nibble) (s : State),
    ((∀ k, k < 16 → s.keys.getLsbD k = false) → ∃ t, exec (.ldVxK x) s = .next t ∧ t.pc = s.pc - 2 ∧
      changesOnly [] [.programCounter] s t) ∧
    (∀ k, k < 16 → s.keys.getLsbD k = true → (∀ j, j < k → s.keys.getLsbD j = false) →
      ∃ t, exec (.ldVxK x) s = .next t ∧ (t.reg x).toNat = k ∧ changesOnly [x] [] s t)

/-- LD Vx, DT; LD DT, Vx; LD ST, Vx (45 R202, R204, R205). -/
def Obligations.TimerLoadsAndReads : Prop :=
  ∀ (x : Nibble) (s : State),
    (∃ t, exec (.ldVxDt x) s = .next t ∧ t.reg x = s.dt ∧ changesOnly [x] [] s t) ∧
    (∃ t, exec (.ldDtVx x) s = .next t ∧ t.dt = s.reg x ∧ changesOnly [] [.delayTimer] s t) ∧
    (∃ t, exec (.ldStVx x) s = .next t ∧ t.st = s.reg x ∧ changesOnly [] [.soundTimer] s t)

/-! ## Scheduler, host -/

/-- A poll restamps exactly the clocks whose period has passed, each from `now` (46 R221, the spec's decision D20),
whatever the instruction run, and keeps `now` for the poll after it (46 R227, log 7). -/
def Obligations.PollRestampsTheDueClocks : Prop :=
  ∀ (s t : State) (p : PollInput) (rest : List HostEvent), pollPending p rest s → step s = .next t →
    (due p.now s.last.cpu s.params.cpuHz → t.last.cpu = p.now) ∧
    (¬ due p.now s.last.cpu s.params.cpuHz → t.last.cpu = s.last.cpu) ∧
    (due p.now s.last.timer 60 → t.last.timer = p.now) ∧
    (¬ due p.now s.last.timer 60 → t.last.timer = s.last.timer) ∧
    (due p.now s.last.display 60 → t.last.display = p.now) ∧
    (¬ due p.now s.last.display 60 → t.last.display = s.last.display) ∧ t.hostTime = p.now

/-- Every poll a state of the invariant can take completes: no instruction faults or is refused. -/
def Obligations.EveryPollCompletes : Prop :=
  ∀ (s : State) (p : PollInput) (rest : List HostEvent), s.Inv → pollPending p rest s → ∃ t, step s = .next t

/-- One iteration (46 R222): the Tick if the CPU clock is due; if it halted the core nothing more (the spec's decision
D18); else the timer decrement if due, then the refresh if due. -/
def Obligations.IterationRunsInOrder : Prop :=
  ∀ (s a : State) (p : PollInput) (rest : List HostEvent), pollPending p rest s →
    (if due p.now s.last.cpu s.params.cpuHz then tick (sample p { s with host := rest }) = .next a
      else a = sample p { s with host := rest }) →
    (a.halted = true → step s = .next a) ∧
    (a.halted = false →
      ∃ b c, (if due p.now s.last.timer 60 then b = decrementTimers a else b = a) ∧
        (if due p.now s.last.display 60 then c = refresh b else c = b) ∧ step s = .next c)

/-- FX15 in an iteration in which the timer clock fires too leaves DT = Vx - 1, for Vx above 0 (70 R297). -/
def Obligations.DelayLoadedThenDecrementedInOneIteration : Prop :=
  ∀ (s : State) (p : PollInput) (rest : List HostEvent) (x : Nibble), pollPending p rest s →
    due p.now s.last.cpu s.params.cpuHz → due p.now s.last.timer 60 →
    s.wordAt s.pc.toNat = some (encode (.ldDtVx x)) → 0 < (s.reg x).toNat →
    ∃ t, step s = .next t ∧ t.dt.toNat = (s.reg x).toNat - 1 ∧ t.pc = s.pc + 2

/-- Any number of DecrementTimers (46 R223): each timer on its own, down by 1 a firing, floored at 0, so that a timer
loaded with v reaches 0 after exactly v firings and stays there; nothing else changes. -/
def Obligations.TimerFiringsCountDownToZero : Prop :=
  ∀ (firings : Nat) (s : State), s.halted = false →
    (Nat.iterate decrementTimers firings s).dt.toNat = s.dt.toNat - firings ∧
    (Nat.iterate decrementTimers firings s).st.toNat = s.st.toNat - firings ∧
    changesOnly [] [.delayTimer, .soundTimer] s (Nat.iterate decrementTimers firings s)

/-- Refresh (46 R224): FB and DIRTY are presented, then DIRTY is cleared (the spec's decision D21); FB does not change. -/
def Obligations.RefreshPresentsThenClearsDirty : Prop :=
  ∀ s : State, s.halted = false →
    (refresh s).fbOut = s.fb ∧ (refresh s).dirtyOut = s.dirty ∧ (refresh s).dirty = false ∧
    changesOnly [] [.dirtyFlag, .displayPort] s (refresh s)

/-- SOUND, which is 1 while ST > 0, is changed by no instruction but FX18 (46 R225). -/
def Obligations.SoundChangesOnlyWithFx18 : Prop :=
  ∀ (i : Instr) (s t : State), exec i s = .next t →
    (t.outputs.sound = true ↔ 0 < t.st.toNat) ∧
    (t.outputs.sound ≠ s.outputs.sound → ∃ x, i = .ldStVx x ∧ t.st = s.reg x)

/-- A poll of a running core whose `now` is less than that of the PollStep or Reset before it is refused (46 R227, 93
U15, the spec's decision D20). MODEL'S CHOICE (log 7): the refusal is a named one, and covers a `now` before some
clock's last firing in states that no run reaches. -/
def Obligations.PollWithADecreasingTimeIsRefused : Prop :=
  ∀ (s : State) (p : PollInput) (rest : List HostEvent), s.host = .poll p :: rest → s.halted = false →
    (p.now.toNat < s.hostTime.toNat ∨ p.now.toNat < s.last.cpu.toNat ∨ p.now.toNat < s.last.timer.toNat ∨
      p.now.toNat < s.last.display.toNat) →
    step s = .refused .timeWentBack

/-! ## Reset -/

/-- Reset (70 R290, 10_state R35, 20 R66), from any state: every element of the spec's table at its reset value, the ROM
over the font over zeros in memory. The zeros are the spec's decision D3 (log 2), the font's place D1. MODEL'S CHOICE:
the parameters, the time kept for 46 R227 and what the host does next are fields of the model's own (log 5, log 7, log
3). A font past memory is refused: ResetRefusesBadInputs (log 12). -/
def Obligations.ResetGivesTheResetState : Prop :=
  ∀ (s : State) (params : Params) (rom : List Byte) (now : Micros) (rest : List HostEvent),
    s.host = .reset params rom now :: rest → params.wellFormed = true → rom.length ≤ 3584 →
    ∃ t, step s = .next t ∧ t.pc = 0x0200 ∧ (∀ x, t.reg x = 0x00) ∧ t.i = 0x0000 ∧ t.sp = 0 ∧
      t.stack.length = params.stackDepth ∧ (∀ a, a ∈ t.stack → a = 0x0000) ∧ t.dt = 0x00 ∧ t.st = 0x00 ∧
      (∀ row col, row < 32 → col < 64 → pixelAt t.fb row col = false) ∧ t.dirty = false ∧
      t.last = { cpu := now, timer := now, display := now } ∧ t.halted = false ∧ t.errCause = 0 ∧
      t.errOpcode = 0x0000 ∧ t.errPc = 0x0000 ∧ t.params = params ∧ t.hostTime = now ∧
      t.host = rest ∧
      (∀ (k : Nat) (hk : k < rom.length), t.byteAt (0x200 + k) = some rom[k]) ∧
      (∀ a, a ≤ 4095 → a < 0x200 ∨ 0x200 + rom.length ≤ a →
        (∀ (k : Nat) (hk : k < 80), a = params.fontBase + k → t.byteAt a = some params.fontData[k]) ∧
        (a < params.fontBase ∨ params.fontBase + 80 ≤ a → t.byteAt a = some 0x00))

/-- A Reset with an image of more than 3584 bytes, or with CPU_HZ = 0, is refused: the core does not start (20 R66, 46
R220, 60 R256; the spec's decisions D26 and D30). The model's own, DEDUCED (log 12): so is, of legal inputs otherwise, a
font that does not fit in memory, for part of which 20 R51 gives no cells. -/
def Obligations.ResetRefusesBadInputs : Prop :=
  ∀ (s : State) (params : Params) (rom : List Byte) (now : Micros) (rest : List HostEvent),
    s.host = .reset params rom now :: rest →
    (3584 < rom.length → step s = .refused .romTooLong) ∧
    (rom.length ≤ 3584 → params.cpuHz = 0 → step s = .refused .cpuHzZero) ∧
    (rom.length ≤ 3584 → 1 ≤ params.cpuHz → 4096 < params.fontBase + 80 → step s = .refused .fontOutsideMemory)

/-! ## The whole machine -/

/-- The invariant of 10_state R36, with the memory's canonical form and the parameters' legality, is kept by every step:
polls running any instruction, and resets. -/
def Obligations.EveryStepKeepsTheInvariant : Prop :=
  ∀ s t : State, s.Inv → step s = .next t → t.Inv

/-- The invariant holds after reset. -/
def Obligations.ResetStateMeetsTheInvariant : Prop := State.reset.Inv

/-- The keys are read by EX9E, EXA1 and FX0A alone, the random byte by CXNN alone (40 R106): for any other instruction,
changing the input changes nothing of the result but the input itself. -/
def Obligations.InputsAreReadOnlyWhereNamed : Prop :=
  ∀ (i : Instr) (s : State) (keys : BitVec 16) (rand : Byte),
    (readsKeys i = false ∨ keys = s.keys) → (readsRand i = false ∨ rand = s.rand) →
    exec i { s with keys := keys, rand := rand } =
      mapNext (fun t => { t with keys := keys, rand := rand }) (exec i s)

/-- A V register is written only by the instructions that name it as destination or, for VF, by the six that write the
flag (10_state R21, R22). -/
def Obligations.RegistersAreWrittenOnlyWhereNamed : Prop :=
  ∀ (i : Instr) (s t : State) (x : Nibble), exec i s = .next t → mayWriteReg i x = false → t.reg x = s.reg x

/-- Every piece of state, and memory, is written only by the instructions of its row of the table of 10_state section 1
(I by ANNN, FX1E, FX29; the stack by 2NNN, 00EE; DT by FX15; ST by FX18; FB and DIRTY by 00E0, DXYN; memory by FX33,
FX55; the clocks, the parameters and the display port by none; the error record by those of 60 R269). -/
def Obligations.PiecesAreWrittenOnlyWhereNamed : Prop :=
  ∀ (i : Instr) (s t : State), exec i s = .next t →
    (∀ p : Piece, mayWritePiece i p = false → p.same s t) ∧ (mayWriteMemory i = false → keepsMemory s t)

/-- The matrix of 60 R269: the instructions that can raise nothing (DRW with n = 0 among them) complete in every state,
the error record untouched; every instruction completes in every state with a sound stack; and a next state in which the
error record differs is a raise of the one cause the matrix gives the instruction. The form of the error record is the
spec's decisions D15 and D16 (60 R250, R259; log 8, log 18). -/
def Obligations.OnlyTheListedInstructionsRaise : Prop :=
  ∀ (i : Instr) (s : State),
    (mayRaise i = false → ∃ t, exec i s = .next t ∧ Piece.same .errorRecord s t) ∧
    (s.stack.length = s.params.stackDepth → s.sp ≤ s.params.stackDepth → ∃ t, exec i s = .next t) ∧
    (∀ t, exec i s = .next t → Piece.same .errorRecord s t ∨
      ∃ c, causeOf i = some c ∧ haltedWith c.code (encode i) (s.pc - 2) t)

/-- At a jump to itself a further Tick changes nothing at all (70 R294, the spec's convention D33). -/
def Obligations.JumpToSelfIsTheEndOfARun : Prop :=
  ∀ s : State, s.atEnd → tick s = .next s
end

