-- ==== Sys2Proof/Laws/Decode.lean ====
section
/-! SUPPORT. The fields of packed words, and words put together again from their fields (spec/30_encoding R81, R82). -/

namespace Sys2Proof

theorem toNat_packNibbles (a x y n : Nibble) :
    (packNibbles a x y n).toNat = a.toNat * 4096 + x.toNat * 256 + y.toNat * 16 + n.toNat := by
  have ha := a.isLt; have hx := x.isLt; have hy := y.isLt; have hn := n.isLt
  simp only [packNibbles, BitVec.toNat_append]
  rw [← Nat.shiftLeft_add_eq_or_of_lt (by omega), ← Nat.shiftLeft_add_eq_or_of_lt (by omega),
    ← Nat.shiftLeft_add_eq_or_of_lt (by omega)]
  simp only [Nat.shiftLeft_eq]
  omega

theorem toNat_packByte (a x : Nibble) (nn : Byte) :
    (packByte a x nn).toNat = a.toNat * 4096 + x.toNat * 256 + nn.toNat := by
  have ha := a.isLt; have hx := x.isLt; have hn := nn.isLt
  simp only [packByte, BitVec.toNat_append]
  rw [← Nat.shiftLeft_add_eq_or_of_lt (by omega), ← Nat.shiftLeft_add_eq_or_of_lt (by omega)]
  simp only [Nat.shiftLeft_eq]
  omega

theorem toNat_packAddr (a : Nibble) (nnn : Addr) : (packAddr a nnn).toNat = a.toNat * 4096 + nnn.toNat := by
  have ha := a.isLt; have hn := nnn.isLt
  simp only [packAddr, BitVec.toNat_append]
  rw [← Nat.shiftLeft_add_eq_or_of_lt (by omega)]
  simp only [Nat.shiftLeft_eq]

theorem toNat_wordOfBytes (hi lo : Byte) : (wordOfBytes hi lo).toNat = hi.toNat * 256 + lo.toNat := by
  have hl := lo.isLt
  simp only [wordOfBytes, BitVec.toNat_append]
  rw [← Nat.shiftLeft_add_eq_or_of_lt (by omega)]
  simp only [Nat.shiftLeft_eq]

/-- Each field of a word as a number (R81). -/
theorem toNat_opField (w : Word) : (opField w).toNat = w.toNat / 4096 := by
  have := w.isLt
  simp only [opField, BitVec.extractLsb'_toNat, Nat.shiftRight_eq_div_pow]
  omega

theorem toNat_xField (w : Word) : (xField w).toNat = w.toNat / 256 % 16 := by
  simp only [xField, BitVec.extractLsb'_toNat, Nat.shiftRight_eq_div_pow]

theorem toNat_yField (w : Word) : (yField w).toNat = w.toNat / 16 % 16 := by
  simp only [yField, BitVec.extractLsb'_toNat, Nat.shiftRight_eq_div_pow]

theorem toNat_nField (w : Word) : (nField w).toNat = w.toNat % 16 := by
  simp [nField, BitVec.extractLsb'_toNat]

theorem toNat_nnField (w : Word) : (nnField w).toNat = w.toNat % 256 := by
  simp [nnField, BitVec.extractLsb'_toNat]

theorem toNat_nnnField (w : Word) : (nnnField w).toNat = w.toNat % 4096 := by
  simp [nnnField, BitVec.extractLsb'_toNat]

/-! ## The fields of a packed word -/

@[simp] theorem opField_packNibbles (a x y n : Nibble) : opField (packNibbles a x y n) = a := by
  apply BitVec.eq_of_toNat_eq
  rw [toNat_opField, toNat_packNibbles]
  have := x.isLt; have := y.isLt; have := n.isLt
  omega

@[simp] theorem xField_packNibbles (a x y n : Nibble) : xField (packNibbles a x y n) = x := by
  apply BitVec.eq_of_toNat_eq
  rw [toNat_xField, toNat_packNibbles]
  have := x.isLt; have := y.isLt; have := n.isLt
  omega

@[simp] theorem yField_packNibbles (a x y n : Nibble) : yField (packNibbles a x y n) = y := by
  apply BitVec.eq_of_toNat_eq
  rw [toNat_yField, toNat_packNibbles]
  have := x.isLt; have := y.isLt; have := n.isLt
  omega

@[simp] theorem nField_packNibbles (a x y n : Nibble) : nField (packNibbles a x y n) = n := by
  apply BitVec.eq_of_toNat_eq
  rw [toNat_nField, toNat_packNibbles]
  have := n.isLt
  omega

@[simp] theorem opField_packByte (a x : Nibble) (nn : Byte) : opField (packByte a x nn) = a := by
  apply BitVec.eq_of_toNat_eq
  rw [toNat_opField, toNat_packByte]
  have := x.isLt; have := nn.isLt
  omega

@[simp] theorem xField_packByte (a x : Nibble) (nn : Byte) : xField (packByte a x nn) = x := by
  apply BitVec.eq_of_toNat_eq
  rw [toNat_xField, toNat_packByte]
  have := x.isLt; have := nn.isLt
  omega

@[simp] theorem nnField_packByte (a x : Nibble) (nn : Byte) : nnField (packByte a x nn) = nn := by
  apply BitVec.eq_of_toNat_eq
  rw [toNat_nnField, toNat_packByte]
  have := nn.isLt
  omega

@[simp] theorem opField_packAddr (a : Nibble) (nnn : Addr) : opField (packAddr a nnn) = a := by
  apply BitVec.eq_of_toNat_eq
  rw [toNat_opField, toNat_packAddr]
  have := nnn.isLt
  omega

@[simp] theorem nnnField_packAddr (a : Nibble) (nnn : Addr) : nnnField (packAddr a nnn) = nnn := by
  apply BitVec.eq_of_toNat_eq
  rw [toNat_nnnField, toNat_packAddr]
  have := nnn.isLt
  omega

/-! ## A word from its fields -/

theorem packNibbles_fields (w : Word) : packNibbles (opField w) (xField w) (yField w) (nField w) = w := by
  apply BitVec.eq_of_toNat_eq
  rw [toNat_packNibbles, toNat_opField, toNat_xField, toNat_yField, toNat_nField]
  have := w.isLt
  omega

theorem packByte_fields (w : Word) : packByte (opField w) (xField w) (nnField w) = w := by
  apply BitVec.eq_of_toNat_eq
  rw [toNat_packByte, toNat_opField, toNat_xField, toNat_nnField]
  have := w.isLt
  omega

theorem packAddr_fields (w : Word) : packAddr (opField w) (nnnField w) = w := by
  apply BitVec.eq_of_toNat_eq
  rw [toNat_packAddr, toNat_opField, toNat_nnnField]
  have := w.isLt
  omega

/-! ## Bytes and words -/

/-- Decoding two bytes is decoding their big-endian word (R80). -/
theorem decode_two (hi lo : Byte) (rest : List Byte) :
    decode (hi :: lo :: rest) =
      match decodeWord (wordOfBytes hi lo) with
      | .ok i => .ok (i, rest)
      | .error r => .error r := rfl

/-- A word laid out and read back. -/
theorem wordOfBytes_split (w : Word) : wordOfBytes (w.extractLsb' 8 8) (w.extractLsb' 0 8) = w := by
  apply BitVec.eq_of_toNat_eq
  rw [toNat_wordOfBytes]
  have := w.isLt
  simp only [BitVec.extractLsb'_toNat, Nat.shiftRight_eq_div_pow]
  omega

end Sys2Proof
end

