-- ==== Sys2Proof/Laws/State.lean ====
section
/-! SUPPORT. One lemma per field per update of State, and what reading a register or a byte gives after each update, so that
no later proof unfolds a record update. -/

namespace Sys2Proof.Machine

/-! ## setReg -/

@[simp] theorem mem_setReg (s : State) (x : Nibble) (b : Byte) :
    (s.setReg x b).mem = s.mem := rfl
@[simp] theorem v_setReg (s : State) (x : Nibble) (b : Byte) :
    (s.setReg x b).v = s.v.set x.toNat b x.isLt := rfl
@[simp] theorem i_setReg (s : State) (x : Nibble) (b : Byte) :
    (s.setReg x b).i = s.i := rfl
@[simp] theorem pc_setReg (s : State) (x : Nibble) (b : Byte) :
    (s.setReg x b).pc = s.pc := rfl
@[simp] theorem stack_setReg (s : State) (x : Nibble) (b : Byte) :
    (s.setReg x b).stack = s.stack := rfl
@[simp] theorem sp_setReg (s : State) (x : Nibble) (b : Byte) :
    (s.setReg x b).sp = s.sp := rfl
@[simp] theorem dt_setReg (s : State) (x : Nibble) (b : Byte) :
    (s.setReg x b).dt = s.dt := rfl
@[simp] theorem st_setReg (s : State) (x : Nibble) (b : Byte) :
    (s.setReg x b).st = s.st := rfl
@[simp] theorem fb_setReg (s : State) (x : Nibble) (b : Byte) :
    (s.setReg x b).fb = s.fb := rfl
@[simp] theorem dirty_setReg (s : State) (x : Nibble) (b : Byte) :
    (s.setReg x b).dirty = s.dirty := rfl
@[simp] theorem last_setReg (s : State) (x : Nibble) (b : Byte) :
    (s.setReg x b).last = s.last := rfl
@[simp] theorem halted_setReg (s : State) (x : Nibble) (b : Byte) :
    (s.setReg x b).halted = s.halted := rfl
@[simp] theorem errCause_setReg (s : State) (x : Nibble) (b : Byte) :
    (s.setReg x b).errCause = s.errCause := rfl
@[simp] theorem errOpcode_setReg (s : State) (x : Nibble) (b : Byte) :
    (s.setReg x b).errOpcode = s.errOpcode := rfl
@[simp] theorem errPc_setReg (s : State) (x : Nibble) (b : Byte) :
    (s.setReg x b).errPc = s.errPc := rfl
@[simp] theorem fbOut_setReg (s : State) (x : Nibble) (b : Byte) :
    (s.setReg x b).fbOut = s.fbOut := rfl
@[simp] theorem dirtyOut_setReg (s : State) (x : Nibble) (b : Byte) :
    (s.setReg x b).dirtyOut = s.dirtyOut := rfl
@[simp] theorem params_setReg (s : State) (x : Nibble) (b : Byte) :
    (s.setReg x b).params = s.params := rfl
@[simp] theorem keys_setReg (s : State) (x : Nibble) (b : Byte) :
    (s.setReg x b).keys = s.keys := rfl
@[simp] theorem rand_setReg (s : State) (x : Nibble) (b : Byte) :
    (s.setReg x b).rand = s.rand := rfl
@[simp] theorem hostTime_setReg (s : State) (x : Nibble) (b : Byte) :
    (s.setReg x b).hostTime = s.hostTime := rfl
@[simp] theorem host_setReg (s : State) (x : Nibble) (b : Byte) :
    (s.setReg x b).host = s.host := rfl

/-! ## setPc -/

@[simp] theorem mem_setPc (s : State) (a : Word) :
    (s.setPc a).mem = s.mem := rfl
@[simp] theorem v_setPc (s : State) (a : Word) :
    (s.setPc a).v = s.v := rfl
@[simp] theorem i_setPc (s : State) (a : Word) :
    (s.setPc a).i = s.i := rfl
@[simp] theorem pc_setPc (s : State) (a : Word) :
    (s.setPc a).pc = a := rfl
@[simp] theorem stack_setPc (s : State) (a : Word) :
    (s.setPc a).stack = s.stack := rfl
@[simp] theorem sp_setPc (s : State) (a : Word) :
    (s.setPc a).sp = s.sp := rfl
@[simp] theorem dt_setPc (s : State) (a : Word) :
    (s.setPc a).dt = s.dt := rfl
@[simp] theorem st_setPc (s : State) (a : Word) :
    (s.setPc a).st = s.st := rfl
@[simp] theorem fb_setPc (s : State) (a : Word) :
    (s.setPc a).fb = s.fb := rfl
@[simp] theorem dirty_setPc (s : State) (a : Word) :
    (s.setPc a).dirty = s.dirty := rfl
@[simp] theorem last_setPc (s : State) (a : Word) :
    (s.setPc a).last = s.last := rfl
@[simp] theorem halted_setPc (s : State) (a : Word) :
    (s.setPc a).halted = s.halted := rfl
@[simp] theorem errCause_setPc (s : State) (a : Word) :
    (s.setPc a).errCause = s.errCause := rfl
@[simp] theorem errOpcode_setPc (s : State) (a : Word) :
    (s.setPc a).errOpcode = s.errOpcode := rfl
@[simp] theorem errPc_setPc (s : State) (a : Word) :
    (s.setPc a).errPc = s.errPc := rfl
@[simp] theorem fbOut_setPc (s : State) (a : Word) :
    (s.setPc a).fbOut = s.fbOut := rfl
@[simp] theorem dirtyOut_setPc (s : State) (a : Word) :
    (s.setPc a).dirtyOut = s.dirtyOut := rfl
@[simp] theorem params_setPc (s : State) (a : Word) :
    (s.setPc a).params = s.params := rfl
@[simp] theorem keys_setPc (s : State) (a : Word) :
    (s.setPc a).keys = s.keys := rfl
@[simp] theorem rand_setPc (s : State) (a : Word) :
    (s.setPc a).rand = s.rand := rfl
@[simp] theorem hostTime_setPc (s : State) (a : Word) :
    (s.setPc a).hostTime = s.hostTime := rfl
@[simp] theorem host_setPc (s : State) (a : Word) :
    (s.setPc a).host = s.host := rfl

/-! ## setI -/

@[simp] theorem mem_setI (s : State) (a : Word) :
    (s.setI a).mem = s.mem := rfl
@[simp] theorem v_setI (s : State) (a : Word) :
    (s.setI a).v = s.v := rfl
@[simp] theorem i_setI (s : State) (a : Word) :
    (s.setI a).i = a := rfl
@[simp] theorem pc_setI (s : State) (a : Word) :
    (s.setI a).pc = s.pc := rfl
@[simp] theorem stack_setI (s : State) (a : Word) :
    (s.setI a).stack = s.stack := rfl
@[simp] theorem sp_setI (s : State) (a : Word) :
    (s.setI a).sp = s.sp := rfl
@[simp] theorem dt_setI (s : State) (a : Word) :
    (s.setI a).dt = s.dt := rfl
@[simp] theorem st_setI (s : State) (a : Word) :
    (s.setI a).st = s.st := rfl
@[simp] theorem fb_setI (s : State) (a : Word) :
    (s.setI a).fb = s.fb := rfl
@[simp] theorem dirty_setI (s : State) (a : Word) :
    (s.setI a).dirty = s.dirty := rfl
@[simp] theorem last_setI (s : State) (a : Word) :
    (s.setI a).last = s.last := rfl
@[simp] theorem halted_setI (s : State) (a : Word) :
    (s.setI a).halted = s.halted := rfl
@[simp] theorem errCause_setI (s : State) (a : Word) :
    (s.setI a).errCause = s.errCause := rfl
@[simp] theorem errOpcode_setI (s : State) (a : Word) :
    (s.setI a).errOpcode = s.errOpcode := rfl
@[simp] theorem errPc_setI (s : State) (a : Word) :
    (s.setI a).errPc = s.errPc := rfl
@[simp] theorem fbOut_setI (s : State) (a : Word) :
    (s.setI a).fbOut = s.fbOut := rfl
@[simp] theorem dirtyOut_setI (s : State) (a : Word) :
    (s.setI a).dirtyOut = s.dirtyOut := rfl
@[simp] theorem params_setI (s : State) (a : Word) :
    (s.setI a).params = s.params := rfl
@[simp] theorem keys_setI (s : State) (a : Word) :
    (s.setI a).keys = s.keys := rfl
@[simp] theorem rand_setI (s : State) (a : Word) :
    (s.setI a).rand = s.rand := rfl
@[simp] theorem hostTime_setI (s : State) (a : Word) :
    (s.setI a).hostTime = s.hostTime := rfl
@[simp] theorem host_setI (s : State) (a : Word) :
    (s.setI a).host = s.host := rfl

/-! ## setByte -/

@[simp] theorem mem_setByte (s : State) (a : Nat) (b : Byte) :
    (s.setByte a b).mem = s.mem.write s.params a b := rfl
@[simp] theorem v_setByte (s : State) (a : Nat) (b : Byte) :
    (s.setByte a b).v = s.v := rfl
@[simp] theorem i_setByte (s : State) (a : Nat) (b : Byte) :
    (s.setByte a b).i = s.i := rfl
@[simp] theorem pc_setByte (s : State) (a : Nat) (b : Byte) :
    (s.setByte a b).pc = s.pc := rfl
@[simp] theorem stack_setByte (s : State) (a : Nat) (b : Byte) :
    (s.setByte a b).stack = s.stack := rfl
@[simp] theorem sp_setByte (s : State) (a : Nat) (b : Byte) :
    (s.setByte a b).sp = s.sp := rfl
@[simp] theorem dt_setByte (s : State) (a : Nat) (b : Byte) :
    (s.setByte a b).dt = s.dt := rfl
@[simp] theorem st_setByte (s : State) (a : Nat) (b : Byte) :
    (s.setByte a b).st = s.st := rfl
@[simp] theorem fb_setByte (s : State) (a : Nat) (b : Byte) :
    (s.setByte a b).fb = s.fb := rfl
@[simp] theorem dirty_setByte (s : State) (a : Nat) (b : Byte) :
    (s.setByte a b).dirty = s.dirty := rfl
@[simp] theorem last_setByte (s : State) (a : Nat) (b : Byte) :
    (s.setByte a b).last = s.last := rfl
@[simp] theorem halted_setByte (s : State) (a : Nat) (b : Byte) :
    (s.setByte a b).halted = s.halted := rfl
@[simp] theorem errCause_setByte (s : State) (a : Nat) (b : Byte) :
    (s.setByte a b).errCause = s.errCause := rfl
@[simp] theorem errOpcode_setByte (s : State) (a : Nat) (b : Byte) :
    (s.setByte a b).errOpcode = s.errOpcode := rfl
@[simp] theorem errPc_setByte (s : State) (a : Nat) (b : Byte) :
    (s.setByte a b).errPc = s.errPc := rfl
@[simp] theorem fbOut_setByte (s : State) (a : Nat) (b : Byte) :
    (s.setByte a b).fbOut = s.fbOut := rfl
@[simp] theorem dirtyOut_setByte (s : State) (a : Nat) (b : Byte) :
    (s.setByte a b).dirtyOut = s.dirtyOut := rfl
@[simp] theorem params_setByte (s : State) (a : Nat) (b : Byte) :
    (s.setByte a b).params = s.params := rfl
@[simp] theorem keys_setByte (s : State) (a : Nat) (b : Byte) :
    (s.setByte a b).keys = s.keys := rfl
@[simp] theorem rand_setByte (s : State) (a : Nat) (b : Byte) :
    (s.setByte a b).rand = s.rand := rfl
@[simp] theorem hostTime_setByte (s : State) (a : Nat) (b : Byte) :
    (s.setByte a b).hostTime = s.hostTime := rfl
@[simp] theorem host_setByte (s : State) (a : Nat) (b : Byte) :
    (s.setByte a b).host = s.host := rfl

/-! ## raise -/

@[simp] theorem mem_raise (c : Cause) (w pc0 : Word) (s : State) :
    (raise c w pc0 s).mem = s.mem := rfl
@[simp] theorem v_raise (c : Cause) (w pc0 : Word) (s : State) :
    (raise c w pc0 s).v = s.v := rfl
@[simp] theorem i_raise (c : Cause) (w pc0 : Word) (s : State) :
    (raise c w pc0 s).i = s.i := rfl
@[simp] theorem pc_raise (c : Cause) (w pc0 : Word) (s : State) :
    (raise c w pc0 s).pc = s.pc := rfl
@[simp] theorem stack_raise (c : Cause) (w pc0 : Word) (s : State) :
    (raise c w pc0 s).stack = s.stack := rfl
@[simp] theorem sp_raise (c : Cause) (w pc0 : Word) (s : State) :
    (raise c w pc0 s).sp = s.sp := rfl
@[simp] theorem dt_raise (c : Cause) (w pc0 : Word) (s : State) :
    (raise c w pc0 s).dt = s.dt := rfl
@[simp] theorem st_raise (c : Cause) (w pc0 : Word) (s : State) :
    (raise c w pc0 s).st = s.st := rfl
@[simp] theorem fb_raise (c : Cause) (w pc0 : Word) (s : State) :
    (raise c w pc0 s).fb = s.fb := rfl
@[simp] theorem dirty_raise (c : Cause) (w pc0 : Word) (s : State) :
    (raise c w pc0 s).dirty = s.dirty := rfl
@[simp] theorem last_raise (c : Cause) (w pc0 : Word) (s : State) :
    (raise c w pc0 s).last = s.last := rfl
@[simp] theorem halted_raise (c : Cause) (w pc0 : Word) (s : State) :
    (raise c w pc0 s).halted = true := rfl
@[simp] theorem errCause_raise (c : Cause) (w pc0 : Word) (s : State) :
    (raise c w pc0 s).errCause = c.code := rfl
@[simp] theorem errOpcode_raise (c : Cause) (w pc0 : Word) (s : State) :
    (raise c w pc0 s).errOpcode = w := rfl
@[simp] theorem errPc_raise (c : Cause) (w pc0 : Word) (s : State) :
    (raise c w pc0 s).errPc = pc0 := rfl
@[simp] theorem fbOut_raise (c : Cause) (w pc0 : Word) (s : State) :
    (raise c w pc0 s).fbOut = s.fbOut := rfl
@[simp] theorem dirtyOut_raise (c : Cause) (w pc0 : Word) (s : State) :
    (raise c w pc0 s).dirtyOut = s.dirtyOut := rfl
@[simp] theorem params_raise (c : Cause) (w pc0 : Word) (s : State) :
    (raise c w pc0 s).params = s.params := rfl
@[simp] theorem keys_raise (c : Cause) (w pc0 : Word) (s : State) :
    (raise c w pc0 s).keys = s.keys := rfl
@[simp] theorem rand_raise (c : Cause) (w pc0 : Word) (s : State) :
    (raise c w pc0 s).rand = s.rand := rfl
@[simp] theorem hostTime_raise (c : Cause) (w pc0 : Word) (s : State) :
    (raise c w pc0 s).hostTime = s.hostTime := rfl
@[simp] theorem host_raise (c : Cause) (w pc0 : Word) (s : State) :
    (raise c w pc0 s).host = s.host := rfl

/-! ## Registers -/

/-- The register file is what its registers read as. -/
theorem regs_ext {s t : State} (h : ∀ x : Nibble, t.reg x = s.reg x) : t.v = s.v := by
  apply Vector.ext
  intro k hk
  have := h (BitVec.ofNat 4 k)
  simpa [State.reg, Nat.mod_eq_of_lt hk] using this

theorem reg_congr {s t : State} (h : t.v = s.v) (x : Nibble) : t.reg x = s.reg x := by
  simp [State.reg, h]

/-- Reading a register after a write: the value written, or what was there. -/
theorem reg_setReg (s : State) (x y : Nibble) (b : Byte) :
    (s.setReg x b).reg y = if x = y then b else s.reg y := by
  simp [State.reg, State.setReg, Vector.getElem_set, BitVec.toNat_inj]

@[simp] theorem reg_setReg_self (s : State) (x : Nibble) (b : Byte) : (s.setReg x b).reg x = b := by
  simp [reg_setReg]

theorem reg_setReg_of_ne (s : State) {x y : Nibble} (b : Byte) (h : x ≠ y) : (s.setReg x b).reg y = s.reg y := by
  simp [reg_setReg, h]

@[simp] theorem reg_setPc (s : State) (a : Word) (x : Nibble) : (s.setPc a).reg x = s.reg x := rfl
@[simp] theorem reg_setI (s : State) (a : Word) (x : Nibble) : (s.setI a).reg x = s.reg x := rfl
@[simp] theorem reg_setByte (s : State) (a : Nat) (b : Byte) (x : Nibble) : (s.setByte a b).reg x = s.reg x := rfl
@[simp] theorem reg_raise (c : Cause) (w pc0 : Word) (s : State) (x : Nibble) : (raise c w pc0 s).reg x = s.reg x := rfl

/-! ## Bytes -/

/-- A byte reads the same in two states with the same memory and parameters. -/
theorem byteAt_congr {s t : State} (hm : t.mem = s.mem) (hp : t.params = s.params) (a : Nat) :
    t.byteAt a = s.byteAt a := by
  simp [State.byteAt, hm, hp]

theorem wordAt_congr {s t : State} (hm : t.mem = s.mem) (hp : t.params = s.params) (a : Nat) :
    t.wordAt a = s.wordAt a := by
  simp [State.wordAt, hm, hp]

@[simp] theorem byteAt_setReg (s : State) (x : Nibble) (b : Byte) (a : Nat) : (s.setReg x b).byteAt a = s.byteAt a := rfl
@[simp] theorem byteAt_setPc (s : State) (w : Word) (a : Nat) : (s.setPc w).byteAt a = s.byteAt a := rfl
@[simp] theorem byteAt_setI (s : State) (w : Word) (a : Nat) : (s.setI w).byteAt a = s.byteAt a := rfl
@[simp] theorem byteAt_raise (c : Cause) (w pc0 : Word) (s : State) (a : Nat) :
    (raise c w pc0 s).byteAt a = s.byteAt a := rfl
@[simp] theorem wordAt_setPc (s : State) (w : Word) (a : Nat) : (s.setPc w).wordAt a = s.wordAt a := rfl

/-- The bounds check alone decides whether a byte can be read (20_memory R54). -/
theorem byteAt_eq_some {s : State} {a : Nat} {b : Byte} :
    s.byteAt a = some b ↔ a ≤ 4095 ∧ s.mem.read s.params a = b := by
  unfold State.byteAt
  split <;> simp_all

theorem byteAt_eq_none {s : State} {a : Nat} : s.byteAt a = none ↔ 4095 < a := by
  unfold State.byteAt
  split <;> simp_all

/-! ## Skips -/

@[simp] theorem skipIf_true (s : State) : skipIf true s = s.setPc (s.pc + 2) := rfl
@[simp] theorem skipIf_false (s : State) : skipIf false s = s := rfl

theorem pc_skipIf (c : Bool) (s : State) : (skipIf c s).pc = if c then s.pc + 2 else s.pc := by
  cases c <;> rfl

/-! ## Frames -/

/-- An update that keeps everything keeps every piece. -/
theorem keepsPiecesBut_refl (l : List Piece) (s : State) : keepsPiecesBut l s s := by
  intro p _
  cases p <;> simp [Piece.same]

theorem keepsRegsBut_refl (l : List Nibble) (s : State) : keepsRegsBut l s s := fun _ _ => rfl
theorem keepsMemory_refl (s : State) : keepsMemory s s := fun _ => rfl

theorem changesOnly_refl (l : List Nibble) (ps : List Piece) (s : State) : changesOnly l ps s s :=
  ⟨keepsRegsBut_refl l s, keepsPiecesBut_refl ps s, keepsMemory_refl s⟩

theorem keepsPiecesBut_trans {l : List Piece} {s t u : State} (h : keepsPiecesBut l s t) (k : keepsPiecesBut l t u) :
    keepsPiecesBut l s u := by
  intro p hp
  have := h p hp
  have := k p hp
  cases p <;> simp_all [Piece.same]

theorem keepsPiecesBut_mono {l m : List Piece} {s t : State} (h : keepsPiecesBut l s t) (hs : ∀ p, p ∈ l → p ∈ m) :
    keepsPiecesBut m s t := fun p hp => h p fun hl => hp (hs p hl)

/-- Writing a register changes no piece and no byte. -/
theorem keepsPiecesBut_setReg (l : List Piece) (s : State) (x : Nibble) (b : Byte) :
    keepsPiecesBut l s (s.setReg x b) := by
  intro p _
  cases p <;> simp [Piece.same]

theorem changesOnly_setReg (ps : List Piece) (s : State) (x : Nibble) (b : Byte) :
    changesOnly [x] ps s (s.setReg x b) :=
  ⟨fun y hy => reg_setReg_of_ne s b (fun h => hy (by simp [h])), keepsPiecesBut_setReg ps s x b, fun _ => rfl⟩

theorem changesOnly_setPc (l : List Nibble) (s : State) (a : Word) :
    changesOnly l [.programCounter] s (s.setPc a) := by
  refine ⟨fun _ _ => rfl, fun p hp => ?_, fun _ => rfl⟩
  cases p <;> simp_all [Piece.same]

theorem changesOnly_setI (l : List Nibble) (s : State) (a : Word) : changesOnly l [.index] s (s.setI a) := by
  refine ⟨fun _ _ => rfl, fun p hp => ?_, fun _ => rfl⟩
  cases p <;> simp_all [Piece.same]

/-- Raising changes the error record and nothing else (60 R259). -/
theorem changesOnly_raise (l : List Nibble) (c : Cause) (w pc0 : Word) (s : State) :
    changesOnly l [.errorRecord] s (raise c w pc0 s) := by
  refine ⟨fun _ _ => rfl, fun p hp => ?_, fun _ => rfl⟩
  cases p <;> simp_all [Piece.same]

theorem haltedWith_raise (c : Cause) (w pc0 : Word) (s : State) : haltedWith c.code w pc0 (raise c w pc0 s) :=
  ⟨rfl, rfl, rfl, rfl⟩

end Sys2Proof.Machine
end

