-- ==== Sys2Proof/Laws/Memory.lean ====
section
/-! SUPPORT. The laws of MEM: a read after a write, that every memory operation keeps the canonical form, and that two
canonical memories that read alike are equal. -/

namespace Sys2Proof.Machine

theorem lookup_none_of_lt {m : Memory} {a : Nat} (h : ∀ c ∈ m, a < c.1) : Memory.lookup m a = none := by
  induction m with
  | nil => rfl
  | cons c m ih =>
    have hc := h c (by simp)
    have : a ≠ c.1 := by omega
    simp [Memory.lookup, this]
    exact ih fun d hd => h d (by simp [hd])

/-- The canonical form, cell by cell. -/
theorem wf_cons {p : Params} {a : Nat} {v : Byte} {m : Memory} :
    Memory.wf p ((a, v) :: m) = true ↔
      a < memSize ∧ v ≠ initialByte p a ∧ (∀ c ∈ m, a < c.1) ∧ Memory.wf p m = true := by
  simp [Memory.wf, and_assoc]

@[simp] theorem wf_nil (p : Params) : Memory.wf p [] = true := rfl

theorem mem_put {d : Byte} {a : Nat} {v : Byte} {m : Memory} {c : Host.Cell} (h : c ∈ Memory.put d a v m) :
    c = (a, v) ∨ c ∈ m := by
  induction m with
  | nil =>
    simp only [Memory.put] at h
    split at h <;> simp_all
  | cons e m ih =>
    obtain ⟨b, u⟩ := e
    simp only [Memory.put] at h
    split at h
    · split at h
      · exact .inr h
      · simp only [List.mem_cons] at h ⊢; tauto
    · split at h
      · split at h
        · exact .inr (by simp [h])
        · simp only [List.mem_cons] at h ⊢; tauto
      · simp only [List.mem_cons] at h ⊢
        rcases h with h | h
        · tauto
        · rcases ih h with h | h <;> tauto

/-- A write keeps the canonical form. -/
theorem wf_put {p : Params} {a : Nat} (ha : a < memSize) (v : Byte) {m : Memory} (h : Memory.wf p m = true) :
    Memory.wf p (Memory.put (initialByte p a) a v m) = true := by
  induction m with
  | nil =>
    simp only [Memory.put]
    split
    · rfl
    · next hv => simp [wf_cons, ha, hv]
  | cons e m ih =>
    obtain ⟨b, u⟩ := e
    obtain ⟨hb, hu, hlt, hm⟩ := wf_cons.mp h
    simp only [Memory.put]
    split
    · next hab =>
      split
      · exact h
      · next hv =>
        refine wf_cons.mpr ⟨ha, hv, fun c hc => ?_, h⟩
        rcases List.mem_cons.mp hc with rfl | hc
        · exact hab
        · exact hab.trans (hlt c hc)
    · split
      · next hab =>
        subst hab
        split
        · exact hm
        · next hv => exact wf_cons.mpr ⟨ha, hv, hlt, hm⟩
      · next h1 h2 =>
        refine wf_cons.mpr ⟨hb, hu, fun c hc => ?_, ih hm⟩
        rcases mem_put hc with rfl | hc
        · show b < a
          omega
        · exact hlt c hc

theorem wf_write {p : Params} {m : Memory} (h : Memory.wf p m = true) {a : Nat} (ha : a < memSize) (v : Byte) :
    Memory.wf p (Memory.write p m a v) = true := wf_put ha v h

theorem wf_writeList {p : Params} (bs : List Byte) {m : Memory} (h : Memory.wf p m = true) {a : Nat}
    (ha : a + bs.length ≤ memSize) : Memory.wf p (Memory.writeList p m a bs) = true := by
  induction bs generalizing m a with
  | nil => exact h
  | cons b bs ih =>
    simp only [List.length_cons] at ha
    exact ih (wf_write h (by omega) b) (by omega)

/-- The memory of the reset state is canonical. -/
theorem wf_reset : State.reset.mem.wf State.reset.params = true := rfl

/-- What a lookup finds after a put into a rising list. -/
theorem lookup_put {d : Byte} {a : Nat} {v : Byte} {m : Memory} (hm : m.Pairwise fun x y => x.1 < y.1) (c : Nat) :
    Memory.lookup (Memory.put d a v m) c =
      if c = a then (if v = d then none else some v) else Memory.lookup m c := by
  induction m with
  | nil =>
    simp only [Memory.put]
    split <;> by_cases hc : c = a <;> simp_all [Memory.lookup]
  | cons e m ih =>
    obtain ⟨b, u⟩ := e
    obtain ⟨hlt, hm⟩ := List.pairwise_cons.mp hm
    have hlt : ∀ x ∈ m, b < x.1 := hlt
    simp only [Memory.put]
    split
    · next hab =>
      have hnone : Memory.lookup ((b, u) :: m) a = none :=
        lookup_none_of_lt fun x hx => by
          rcases List.mem_cons.mp hx with rfl | hx
          · exact hab
          · exact hab.trans (hlt x hx)
      by_cases hc : c = a
      · subst hc
        split <;> simp_all [Memory.lookup]
      · split <;> simp_all [Memory.lookup]
    · split
      · next hab =>
        subst hab
        have hnone : Memory.lookup m a = none := lookup_none_of_lt hlt
        by_cases hc : c = a
        · subst hc
          split <;> simp_all [Memory.lookup]
        · split <;> simp_all [Memory.lookup]
      · next h1 h2 =>
        simp only [Memory.lookup, ih hm]
        by_cases hc : c = b
        · subst hc
          have : c ≠ a := fun h => h2 h.symm
          simp [this]
        · simp [hc]

/-- A put leaves every other address alone, in a list of any shape. -/
theorem lookup_put_of_ne {d : Byte} {a : Nat} {v : Byte} (m : Memory) {c : Nat} (hc : c ≠ a) :
    Memory.lookup (Memory.put d a v m) c = Memory.lookup m c := by
  induction m with
  | nil =>
    simp only [Memory.put]
    split <;> simp [Memory.lookup, hc]
  | cons e m ih =>
    obtain ⟨b, u⟩ := e
    simp only [Memory.put]
    split
    · split <;> simp [Memory.lookup, hc]
    · split
      · next hab =>
        subst hab
        split <;> simp [Memory.lookup, hc]
      · simp [Memory.lookup, ih]

/-- A write leaves every other address alone, in a memory of any shape (20_memory R56). -/
theorem read_write_of_ne (p : Params) (m : Memory) {a c : Nat} (v : Byte) (hc : c ≠ a) :
    Memory.read p (Memory.write p m a v) c = Memory.read p m c := by
  simp [Memory.read, Memory.write, lookup_put_of_ne m hc]

theorem pairwise_of_wf {p : Params} {m : Memory} (h : Memory.wf p m = true) : m.Pairwise fun x y => x.1 < y.1 := by
  induction m with
  | nil => exact .nil
  | cons e m ih =>
    obtain ⟨_, _, hlt, hm⟩ := wf_cons.mp h
    exact List.pairwise_cons.mpr ⟨hlt, ih hm⟩

/-- `put` into a memory of any shape: the address written reads as the value written. -/
theorem lookup_put_self (d : Byte) (a : Nat) (v : Byte) (m : Memory) (hm : m.Pairwise fun x y => x.1 < y.1) :
    (Memory.lookup (Memory.put d a v m) a).getD d = v := by
  rw [lookup_put hm]
  by_cases h : v = d <;> simp [h]

/-- A read after a write (20_memory R54, R56), in a canonical memory. -/
theorem read_write {p : Params} {m : Memory} (h : Memory.wf p m = true) (a : Nat) (v : Byte) (c : Nat) :
    Memory.read p (Memory.write p m a v) c = if c = a then v else Memory.read p m c := by
  unfold Memory.read Memory.write
  rw [lookup_put (pairwise_of_wf h)]
  by_cases hc : c = a
  · subst hc
    by_cases hv : v = initialByte p c <;> simp [hv]
  · simp [hc]

/-- Reading a copied list of bytes (20_memory R66). -/
theorem read_writeList {p : Params} (bs : List Byte) {m : Memory} (h : Memory.wf p m = true) {a : Nat}
    (ha : a + bs.length ≤ memSize) (c : Nat) :
    Memory.read p (Memory.writeList p m a bs) c =
      if hc : a ≤ c ∧ c - a < bs.length then bs[c - a]'hc.2 else Memory.read p m c := by
  induction bs generalizing m a with
  | nil => simp [Memory.writeList]
  | cons b bs ih =>
    simp only [List.length_cons] at ha
    rw [Memory.writeList, ih (wf_write h (by omega) b) (by omega), read_write h]
    by_cases h1 : c = a
    · subst h1
      simp
    · by_cases h2 : a < c
      · obtain ⟨k, rfl⟩ := Nat.exists_eq_add_of_lt h2
        have e1 : a + k + 1 - (a + 1) = k := by omega
        have e2 : a + k + 1 - a = k + 1 := by omega
        have e3 : a + 1 ≤ a + k + 1 := by omega
        have e4 : a ≤ a + k + 1 := by omega
        have e5 : ¬ a + k + 1 = a := by omega
        simp only [e1, e2, e3, e4, e5, List.length_cons, true_and, if_false, Nat.add_lt_add_iff_right,
          List.getElem_cons_succ]
      · have e1 : ¬ (a + 1 ≤ c) := by omega
        have e2 : ¬ (a ≤ c) := by omega
        simp [e1, e2, h1]

/-- What a listed cell of a canonical memory says. -/
theorem read_cons {p : Params} {a : Nat} {v : Byte} {m : Memory} (c : Nat) :
    Memory.read p ((a, v) :: m) c = if c = a then v else Memory.read p m c := by
  simp only [Memory.read, Memory.lookup]
  split <;> rfl

theorem read_below {p : Params} {m : Memory} {c : Nat} (h : ∀ e ∈ m, c < e.1) :
    Memory.read p m c = initialByte p c := by
  simp [Memory.read, lookup_none_of_lt h]

/-- Canonical memories that read alike are equal. -/
theorem eq_of_read {p : Params} {m n : Memory} (hm : Memory.wf p m = true) (hn : Memory.wf p n = true)
    (h : ∀ a, Memory.read p m a = Memory.read p n a) : m = n := by
  induction m generalizing n with
  | nil =>
    cases n with
    | nil => rfl
    | cons e n =>
      obtain ⟨a, v⟩ := e
      have hv := (wf_cons.mp hn).2.1
      have := h a
      rw [read_cons, if_pos rfl, read_below (by simp)] at this
      exact absurd this.symm hv
  | cons e m ih =>
    obtain ⟨a, v⟩ := e
    obtain ⟨_, hv, hlt, hm'⟩ := wf_cons.mp hm
    cases n with
    | nil =>
      have := h a
      rw [read_cons, if_pos rfl, read_below (by simp)] at this
      exact absurd this hv
    | cons f n =>
      obtain ⟨b, u⟩ := f
      obtain ⟨_, hu, hlt', hn'⟩ := wf_cons.mp hn
      have key : a = b := by
        rcases Nat.lt_trichotomy a b with hab | hab | hab
        · have := h a
          rw [read_cons, if_pos rfl, read_below] at this
          · exact absurd this hv
          · intro e he
            rcases List.mem_cons.mp he with rfl | he
            · exact hab
            · exact hab.trans (hlt' e he)
        · exact hab
        · have := h b
          rw [read_cons (c := b) (a := b), if_pos rfl, read_below] at this
          · exact absurd this.symm hu
          · intro e he
            rcases List.mem_cons.mp he with rfl | he
            · exact hab
            · exact hab.trans (hlt e he)
      subst key
      have huv : v = u := by
        have := h a
        rwa [read_cons, if_pos rfl, read_cons, if_pos rfl] at this
      subst huv
      congr 1
      refine ih hm' hn' fun c => ?_
      have := h c
      rw [read_cons, read_cons] at this
      by_cases hc : c = a
      · subst hc
        rw [read_below hlt, read_below hlt']
      · simpa [hc] using this

end Sys2Proof.Machine
end

