-- ==== Sys2Proof/Laws/Ops.lean ====
section
/-! SUPPORT. What each shared operation can do, said once: stores, loads, the stack, the key scan, the end of an
instruction. -/

namespace Sys2Proof.Machine

/-! ## Small values -/

theorem toNat_absoluteTarget (nnn : Addr) : (absoluteTarget nnn).toNat = nnn.toNat := by
  have := nnn.isLt
  simp only [absoluteTarget, BitVec.toNat_setWidth]
  omega

theorem toNat_offsetTarget (nnn : Addr) (v : Byte) : (offsetTarget nnn v).toNat = nnn.toNat + v.toNat := by
  have := nnn.isLt; have := v.isLt
  simp only [offsetTarget, BitVec.toNat_add, BitVec.toNat_setWidth]
  omega

theorem flagByte_eq_one {b : Bool} : flagByte b = 1 ↔ b = true := by cases b <;> decide

/-! ## Parts and the end of an instruction -/

@[simp] theorem andThen_went (s : State) (f : State → Part) : (Part.went s).andThen f = f s := rfl
@[simp] theorem andThen_raised (c : Cause) (s : State) (f : State → Part) :
    (Part.raised c s).andThen f = .raised c s := rfl
@[simp] theorem andThen_broken (r : Fault) (f : State → Part) : (Part.broken r).andThen f = .broken r := rfl
@[simp] theorem finish_went (i : Instr) (a : Word) (s : State) : finish i a (.went s) = .next s := rfl
@[simp] theorem finish_raised (i : Instr) (a : Word) (c : Cause) (s : State) :
    finish i a (.raised c s) = .next (raise c (encode i) a s) := rfl
@[simp] theorem finish_broken (i : Instr) (a : Word) (f : Fault) : finish i a (.broken f) = .fault f := rfl

/-! ## Stores -/

/-- The state with bytes copied into memory from `a` on. -/
def State.setBytes (s : State) (a : Nat) (bs : List Byte) : State :=
  { s with mem := Memory.writeList s.params s.mem a bs }

/-- A store whose every address exists writes every byte; otherwise it writes those before address 4096 and raises
MemoryFault (20_memory R57 (c)). -/
theorem storeBytes_eq (bs : List Byte) (a : Nat) (s : State) :
    storeBytes a bs s =
      if a + bs.length ≤ 4096 ∨ bs = [] then .went (s.setBytes a bs)
      else .raised .memoryFault (s.setBytes a (bs.take (4096 - a))) := by
  induction bs generalizing a s with
  | nil => simp [storeBytes, State.setBytes, Memory.writeList]
  | cons b bs ih =>
    by_cases ha : a ≤ 4095
    · have e : 4096 - a = (4096 - (a + 1)) + 1 := by omega
      simp only [storeBytes, writeByte, ha, if_true, andThen_went, ih, List.length_cons, e, List.take_succ_cons]
      by_cases hb : a + 1 + bs.length ≤ 4096
      · have : a + (bs.length + 1) ≤ 4096 := by omega
        simp [hb, this, State.setBytes, Memory.writeList, State.setByte]
      · have h1 : ¬ a + (bs.length + 1) ≤ 4096 := by omega
        have h2 : bs ≠ [] := by
          rintro rfl
          simp at hb
          omega
        simp [hb, h1, h2, State.setBytes, Memory.writeList, State.setByte]
    · have e : 4096 - a = 0 := by omega
      have h1 : ¬ a + (bs.length + 1) ≤ 4096 := by omega
      simp [storeBytes, writeByte, ha, h1, e, State.setBytes, Memory.writeList]

theorem storeBytes_fits {bs : List Byte} {a : Nat} (s : State) (h : a + bs.length ≤ 4096) :
    storeBytes a bs s = .went (s.setBytes a bs) := by
  simp [storeBytes_eq, h]

theorem storeBytes_faults {bs : List Byte} {a : Nat} (s : State) (h : 4096 < a + bs.length) (hb : bs ≠ []) :
    storeBytes a bs s = .raised .memoryFault (s.setBytes a (bs.take (4096 - a))) := by
  have : ¬ a + bs.length ≤ 4096 := by omega
  simp [storeBytes_eq, this, hb]

theorem read_writeList_outside (p : Params) (bs : List Byte) (m : Memory) {a c : Nat}
    (h : c < a ∨ a + bs.length ≤ c) : Memory.read p (Memory.writeList p m a bs) c = Memory.read p m c := by
  induction bs generalizing m a with
  | nil => rfl
  | cons b bs ih =>
    simp only [List.length_cons] at h
    rw [Memory.writeList, ih _ (by omega), read_write_of_ne _ _ _ (by omega)]

/-- Bytes outside a store read as before, in a memory of any shape. -/
theorem byteAt_setBytes_outside (s : State) {a c : Nat} {bs : List Byte} (h : c < a ∨ a + bs.length ≤ c) :
    (s.setBytes a bs).byteAt c = s.byteAt c := by
  simp [State.byteAt, State.setBytes, read_writeList_outside _ _ _ h]

/-- Bytes inside a store read as stored, in a canonical memory. -/
theorem byteAt_setBytes_inside {s : State} (hm : s.mem.wf s.params = true) {a k : Nat} {bs : List Byte}
    (ha : a + bs.length ≤ 4096) (hk : k < bs.length) : (s.setBytes a bs).byteAt (a + k) = some bs[k] := by
  have h := read_writeList bs hm (a := a) (by simpa [memSize] using ha) (a + k)
  have h1 : a + k ≤ 4095 := by omega
  have h2 : a + k - a = k := by omega
  simp only [h2, Nat.le_add_right, hk, and_self, dite_true] at h
  simp [State.byteAt, State.setBytes, h1, h]

theorem keepsMemoryOutside_setBytes (s : State) (a : Nat) (bs : List Byte) :
    keepsMemoryOutside a bs.length s (s.setBytes a bs) := fun _ h => byteAt_setBytes_outside s h

theorem keepsPiecesBut_setBytes (l : List Piece) (s : State) (a : Nat) (bs : List Byte) :
    keepsPiecesBut l s (s.setBytes a bs) := by
  intro p _
  cases p <;> simp [Piece.same, State.setBytes]

/-- A store keeps the memory canonical. -/
theorem wf_setBytes {s : State} (hm : s.mem.wf s.params = true) {a : Nat} {bs : List Byte}
    (h : a + bs.length ≤ 4096 ∨ bs = []) : (s.setBytes a bs).mem.wf (s.setBytes a bs).params = true := by
  rcases h with h | rfl
  · exact wf_writeList bs hm (by simpa [memSize] using h)
  · exact hm

/-! ## Loads -/

/-- A state that differs from another only in its V registers. -/
def onlyRegs (s t : State) : Prop := t = { s with v := t.v }

theorem onlyRegs_refl (s : State) : onlyRegs s s := rfl

theorem onlyRegs_trans {s t u : State} (h : onlyRegs s t) (k : onlyRegs t u) : onlyRegs s u := by
  unfold onlyRegs at *
  rw [k, h]

theorem onlyRegs_setReg (s : State) (x : Nibble) (b : Byte) : onlyRegs s (s.setReg x b) := rfl

theorem byteAt_onlyRegs {s t : State} (h : onlyRegs s t) (a : Nat) : t.byteAt a = s.byteAt a := by
  rw [h]
  rfl

theorem changesOnly_onlyRegs {s t : State} (h : onlyRegs s t) {l : List Nibble} (hl : keepsRegsBut l s t)
    (ps : List Piece) : changesOnly l ps s t := by
  refine ⟨hl, fun p _ => ?_, byteAt_onlyRegs h⟩
  rw [h]
  cases p <;> simp [Piece.same]

/-- What `todo` loads from `V[k]` and address `a` on come to: where every address exists all are made, else those
before address 4096 and then MemoryFault (43 R165). -/
theorem loadRegs_spec (todo k a : Nat) (s : State) (hk : k + todo ≤ 16) :
    ∃ t, onlyRegs s t ∧
      (∀ x : Nibble, t.reg x = if k ≤ x.toNat ∧ x.toNat < k + min todo (4096 - a)
        then s.mem.read s.params (a + (x.toNat - k)) else s.reg x) ∧
      loadRegs todo k a s = if a + todo ≤ 4096 ∨ todo = 0 then .went t else .raised .memoryFault t := by
  induction todo generalizing k a s with
  | zero =>
    refine ⟨s, onlyRegs_refl s, fun x => ?_, by simp [loadRegs]⟩
    rw [if_neg (by omega)]
  | succ todo ih =>
    by_cases ha : a ≤ 4095
    · obtain ⟨t, ht, hr, he⟩ := ih (k + 1) (a + 1) (s.setReg (BitVec.ofNat 4 k) (s.mem.read s.params a)) (by omega)
      refine ⟨t, onlyRegs_trans (onlyRegs_setReg s _ _) ht, fun x => ?_, ?_⟩
      · rw [hr x]
        by_cases hx : x.toNat = k
        · have hx' : BitVec.ofNat 4 k = x := by
            apply BitVec.eq_of_toNat_eq
            simp only [BitVec.toNat_ofNat]
            omega
          have h1 : ¬ (k + 1 ≤ x.toNat ∧ x.toNat < k + 1 + min todo (4096 - (a + 1))) := by omega
          have h2 : k ≤ x.toNat ∧ x.toNat < k + min (todo + 1) (4096 - a) := by omega
          have h3 : a + (x.toNat - k) = a := by omega
          rw [if_neg h1, if_pos h2, h3, hx', reg_setReg_self]
        · have hx' : BitVec.ofNat 4 k ≠ x := by
            rintro rfl
            simp only [BitVec.toNat_ofNat] at hx
            omega
          rw [reg_setReg_of_ne _ _ hx']
          by_cases hin : k + 1 ≤ x.toNat ∧ x.toNat < k + 1 + min todo (4096 - (a + 1))
          · have h2 : k ≤ x.toNat ∧ x.toNat < k + min (todo + 1) (4096 - a) := by omega
            have h3 : a + 1 + (x.toNat - (k + 1)) = a + (x.toNat - k) := by omega
            rw [if_pos hin, if_pos h2, h3]
            simp
          · have h2 : ¬ (k ≤ x.toNat ∧ x.toNat < k + min (todo + 1) (4096 - a)) := by omega
            rw [if_neg hin, if_neg h2]
      · have hb : s.byteAt a = some (s.mem.read s.params a) := by simp [State.byteAt, ha]
        simp only [loadRegs, loadReg, hb, andThen_went, he]
        by_cases h1 : a + 1 + todo ≤ 4096
        · have h2 : a + (todo + 1) ≤ 4096 := by omega
          simp [h1, h2]
        · have h2 : ¬ a + (todo + 1) ≤ 4096 := by omega
          have h3 : todo ≠ 0 := by omega
          simp [h1, h2, h3]
    · refine ⟨s, onlyRegs_refl s, fun x => ?_, ?_⟩
      · have : ¬ (k ≤ x.toNat ∧ x.toNat < k + min (todo + 1) (4096 - a)) := by omega
        simp [this]
      · have hb : s.byteAt a = none := by simp [State.byteAt, ha]
        have h1 : ¬ a + (todo + 1) ≤ 4096 := by omega
        simp [loadRegs, loadReg, hb, h1]

/-! ## Stack -/

/-- Everything a push can do (41 R122). -/
theorem pushReturn_cases (a : Word) (s : State) :
    (s.sp = s.params.stackDepth ∧ pushReturn a s = .raised .stackOverflow s) ∨
    (s.sp ≠ s.params.stackDepth ∧ s.sp < s.stack.length ∧
      pushReturn a s = .went { s with stack := s.stack.set s.sp a, sp := s.sp + 1 }) ∨
    (s.sp ≠ s.params.stackDepth ∧ s.stack.length ≤ s.sp ∧ pushReturn a s = .broken .noSuchStackEntry) := by
  unfold pushReturn
  split
  · next h => exact .inl ⟨h, rfl⟩
  · next h =>
    split
    · next hl => exact .inr (.inl ⟨h, hl, rfl⟩)
    · next hl => exact .inr (.inr ⟨h, by omega, rfl⟩)

/-- Everything a pop into PC can do (41 R120). -/
theorem popIntoPc_cases (s : State) :
    (s.sp = 0 ∧ popIntoPc s = .raised .stackUnderflow s) ∨
    (∃ a, s.sp ≠ 0 ∧ s.stack[s.sp - 1]? = some a ∧ popIntoPc s = .went { s with sp := s.sp - 1, pc := a }) ∨
    (s.sp ≠ 0 ∧ s.stack[s.sp - 1]? = none ∧ popIntoPc s = .broken .noSuchStackEntry) := by
  unfold popIntoPc
  split
  · next h => exact .inl ⟨h, rfl⟩
  · next h =>
    split
    · next a ha => exact .inr (.inl ⟨a, h, ha, rfl⟩)
    · next ha => exact .inr (.inr ⟨h, ha, rfl⟩)

/-! ## Keys -/

/-- No key is found exactly when none is pressed (45 R203). -/
theorem lowestKey_none {s : State} : lowestKey s = none ↔ ∀ k, k < 16 → s.keys.getLsbD k = false := by
  simp [lowestKey, keyPressed]

/-- The key found is pressed, and none below it is (45 R203). -/
theorem lowestKey_some {s : State} {k : Nat} :
    lowestKey s = some k ↔ k < 16 ∧ s.keys.getLsbD k = true ∧ ∀ j, j < k → s.keys.getLsbD j = false := by
  rw [lowestKey, List.find?_range_eq_some]
  simp [keyPressed]
  tauto

end Sys2Proof.Machine
end

