-- ==== Sys2Proof/Laws/Draw.lean ====
section
/-! SUPPORT. What drawing does to the framebuffer and VF (spec/44_display R181 to R185): a sprite XORs its bits into the
pixels they land on, and VF records whether a lit pixel went off. -/

namespace Sys2Proof.Machine

/-! ## Pixels -/

theorem pixelAt_paintPixel (f : Screen) (row col r c : Nat) (b : Bool) (hr : r < 32) (hc : c < 64) :
    pixelAt (paintPixel f row col b) r c = if row = r ∧ col = c then b else pixelAt f r c := by
  unfold pixelAt paintPixel
  by_cases h : row < 32 ∧ col < 64
  · simp only [h, hr, hc, and_self, dite_true]
    by_cases h1 : row = r
    · subst h1
      by_cases h2 : col = c
      · subst h2
        simp
      · simp [h2, Vector.getElem_set_ne]
    · simp [h1, Vector.getElem_set_ne]
  · have : ¬ (row = r ∧ col = c) := by
      rintro ⟨rfl, rfl⟩
      exact h ⟨hr, hc⟩
    simp [h, this]

/-- The grid is what its pixels read as. -/
theorem screen_ext {f g : Screen} (h : ∀ r c, r < 32 → c < 64 → pixelAt f r c = pixelAt g r c) : f = g := by
  apply Vector.ext
  intro r hr
  apply Vector.ext
  intro c hc
  simpa [pixelAt, hr, hc] using h r c hr hc

theorem pixelAt_blankScreen (r c : Nat) : pixelAt blankScreen r c = false := by
  unfold pixelAt blankScreen
  split <;> simp

/-! ## Frames of drawing -/

/-- `t` differs from `s` at most in the framebuffer and VF. -/
def onlyDraws (s t : State) : Prop :=
  t = { s with fb := t.fb, v := t.v } ∧ ∀ x : Nibble, x ≠ flagReg → t.reg x = s.reg x

theorem onlyDraws_refl (s : State) : onlyDraws s s := ⟨rfl, fun _ _ => rfl⟩

theorem onlyDraws_trans {s t u : State} (h : onlyDraws s t) (k : onlyDraws t u) : onlyDraws s u := by
  refine ⟨?_, fun x hx => (k.2 x hx).trans (h.2 x hx)⟩
  have h1 := h.1
  have k1 := k.1
  rw [k1, h1]

theorem onlyDraws_setFlag (s : State) (b : Byte) : onlyDraws s (s.setReg flagReg b) :=
  ⟨rfl, fun _ hx => reg_setReg_of_ne s b (Ne.symm hx)⟩

theorem onlyDraws_paint (s : State) (f : Screen) : onlyDraws s { s with fb := f } := ⟨rfl, fun _ _ => rfl⟩

theorem onlyDraws_params {s t : State} (h : onlyDraws s t) : t.params = s.params := by
  rw [h.1]

theorem onlyDraws_byteAt {s t : State} (h : onlyDraws s t) (a : Nat) : t.byteAt a = s.byteAt a := by
  rw [h.1]
  rfl

theorem onlyDraws_i {s t : State} (h : onlyDraws s t) : t.i = s.i := by
  rw [h.1]

theorem onlyDraws_pieces {s t : State} (h : onlyDraws s t) : keepsPiecesBut [.screen] s t := by
  intro p hp
  rw [h.1]
  cases p <;> simp_all [Piece.same]

/-! ## One sprite bit -/

/-- Where a set sprite bit at `(row, col)`, possibly past the edge, lands on the screen. -/
def lands (edge : SpriteEdge) (row col r c : Nat) : Prop :=
  match edge with
  | .clip => row = r ∧ col = c
  | .wrap => row % 32 = r ∧ col % 64 = c

/-- The bit of the sprite at offset `(dr, dc)` lands on the pixel whose offset that is. -/
theorem lands_iff (edge : SpriteEdge) {sx sy dr dc r c : Nat} (hx : sx < 64) (hy : sy < 32) (hr : r < 32) (hc : c < 64)
    (hdr : dr < 32) (hdc : dc < 64) :
    lands edge (sy + dr) (sx + dc) r c ↔ spriteOffset edge sx sy r c = some (dr, dc) := by
  cases edge with
  | clip =>
    simp only [lands, spriteOffset]
    split
    · simp only [Option.some.injEq, Prod.mk.injEq]
      omega
    · simp only [reduceCtorEq, iff_false]
      omega
  | wrap =>
    simp only [lands, spriteOffset, Option.some.injEq, Prod.mk.injEq]
    omega

theorem onlyDraws_togglePixel (row col : Nat) (s : State) : onlyDraws s (togglePixel row col s) := by
  unfold togglePixel
  split
  · exact onlyDraws_trans (onlyDraws_paint s _) (onlyDraws_setFlag _ _)
  · exact onlyDraws_paint s _

theorem onlyDraws_plotPixel (row col : Nat) (s : State) : onlyDraws s (plotPixel row col s) := by
  unfold plotPixel
  split
  · split
    · exact onlyDraws_togglePixel row col s
    · exact onlyDraws_refl s
  · exact onlyDraws_togglePixel _ _ s

theorem pixelAt_togglePixel (row col r c : Nat) (s : State) (hr : r < 32) (hc : c < 64) :
    pixelAt (togglePixel row col s).fb r c =
      if row = r ∧ col = c then !pixelAt s.fb r c else pixelAt s.fb r c := by
  unfold togglePixel
  split <;> rename_i hp
  · simp only [fb_setReg, pixelAt_paintPixel _ _ _ _ _ _ hr hc]
    split <;> rename_i h
    · obtain ⟨rfl, rfl⟩ := h
      simp [hp]
    · rfl
  · simp only [pixelAt_paintPixel _ _ _ _ _ _ hr hc]
    split <;> rename_i h
    · obtain ⟨rfl, rfl⟩ := h
      simp [hp]
    · rfl

theorem flag_togglePixel (row col : Nat) (s : State) :
    (togglePixel row col s).reg flagReg = if pixelAt s.fb row col then 1 else s.reg flagReg := by
  unfold togglePixel
  split
  · simp
  · rfl

/-- Plotting XORs the pixel the bit lands on. -/
theorem pixelAt_plotPixel (row col r c : Nat) (s : State) (hr : r < 32) (hc : c < 64)
    [Decidable (lands s.params.spriteEdge row col r c)] :
    pixelAt (plotPixel row col s).fb r c =
      if lands s.params.spriteEdge row col r c then !pixelAt s.fb r c else pixelAt s.fb r c := by
  unfold plotPixel
  split <;> rename_i he
  · simp only [he, lands]
    split
    · rw [pixelAt_togglePixel _ _ _ _ _ hr hc]
    · rw [if_neg]
      rintro ⟨rfl, rfl⟩
      omega
  · simp only [he, lands]
    rw [pixelAt_togglePixel _ _ _ _ _ hr hc]

/-- Plotting sets VF exactly when the bit lands on a lit pixel. -/
theorem flag_plotPixel (row col : Nat) (s : State) :
    (plotPixel row col s).reg flagReg = 1 ∧
      (∃ r c, r < 32 ∧ c < 64 ∧ lands s.params.spriteEdge row col r c ∧ pixelAt s.fb r c = true) ∨
    (plotPixel row col s).reg flagReg = s.reg flagReg ∧
      ¬ ∃ r c, r < 32 ∧ c < 64 ∧ lands s.params.spriteEdge row col r c ∧ pixelAt s.fb r c = true := by
  unfold plotPixel
  split <;> rename_i he
  · simp only [he, lands]
    split <;> rename_i hin
    · rw [flag_togglePixel]
      by_cases hp : pixelAt s.fb row col = true
      · rw [if_pos hp]
        exact .inl ⟨rfl, row, col, by omega, by omega, ⟨rfl, rfl⟩, hp⟩
      · rw [if_neg hp]
        refine .inr ⟨rfl, ?_⟩
        rintro ⟨r, c, _, _, ⟨rfl, rfl⟩, h⟩
        exact hp h
    · refine .inr ⟨rfl, ?_⟩
      rintro ⟨r, c, h1, h2, ⟨rfl, rfl⟩, _⟩
      omega
  · simp only [he, lands]
    rw [flag_togglePixel]
    by_cases hp : pixelAt s.fb (row % 32) (col % 64) = true
    · rw [if_pos hp]
      exact .inl ⟨rfl, _, _, Nat.mod_lt _ (by omega), Nat.mod_lt _ (by omega), ⟨rfl, rfl⟩, hp⟩
    · rw [if_neg hp]
      refine .inr ⟨rfl, ?_⟩
      rintro ⟨r, c, _, _, ⟨rfl, rfl⟩, h⟩
      exact hp h

/-! ## XOR of a set of pixels -/

/-- `t` is `s` with the pixels of `B` XORed in and VF set if one of them was lit. -/
structure Xors (B : Nat → Nat → Bool) (s t : State) : Prop where
  draws : onlyDraws s t
  pixels : ∀ r c, r < 32 → c < 64 → pixelAt t.fb r c = (pixelAt s.fb r c ^^ B r c)
  flag : t.reg flagReg = 1 ∧ (∃ r c, r < 32 ∧ c < 64 ∧ B r c = true ∧ pixelAt s.fb r c = true) ∨
    t.reg flagReg = s.reg flagReg ∧ ¬ ∃ r c, r < 32 ∧ c < 64 ∧ B r c = true ∧ pixelAt s.fb r c = true

theorem Xors.refl {B : Nat → Nat → Bool} (h : ∀ r c, r < 32 → c < 64 → B r c = false) (s : State) : Xors B s s := by
  refine ⟨onlyDraws_refl s, fun r c hr hc => by simp [h r c hr hc], .inr ⟨rfl, ?_⟩⟩
  rintro ⟨r, c, hr, hc, hb, _⟩
  rw [h r c hr hc] at hb
  exact absurd hb (by decide)

/-- Two XORs of disjoint pixel sets are one of their union. -/
theorem Xors.trans {B C D : Nat → Nat → Bool} {s t u : State} (h : Xors B s t) (k : Xors C t u)
    (hdisj : ∀ r c, r < 32 → c < 64 → B r c = true → C r c = false)
    (hD : ∀ r c, r < 32 → c < 64 → D r c = (B r c || C r c)) : Xors D s u := by
  have hpix : ∀ r c, r < 32 → c < 64 → C r c = true → pixelAt t.fb r c = pixelAt s.fb r c := by
    intro r c hr hc hC
    have hB : B r c = false := by
      cases hb : B r c with
      | false => rfl
      | true => rw [hdisj r c hr hc hb] at hC; exact absurd hC (by decide)
    rw [h.pixels r c hr hc, hB, Bool.xor_false]
  refine ⟨onlyDraws_trans h.draws k.draws, fun r c hr hc => ?_, ?_⟩
  · rw [k.pixels r c hr hc, h.pixels r c hr hc, hD r c hr hc]
    cases hb : B r c with
    | false => simp
    | true => simp [hdisj r c hr hc hb]
  · rcases k.flag with ⟨hf, r, c, hr, hc, hC, hp⟩ | ⟨hf, hno⟩
    · exact .inl ⟨hf, r, c, hr, hc, by simp [hD r c hr hc, hC], by rwa [← hpix r c hr hc hC]⟩
    · rcases h.flag with ⟨hg, r, c, hr, hc, hB, hp⟩ | ⟨hg, hno'⟩
      · exact .inl ⟨hf.trans hg, r, c, hr, hc, by simp [hD r c hr hc, hB], hp⟩
      · refine .inr ⟨hf.trans hg, ?_⟩
        rintro ⟨r, c, hr, hc, hDt, hp⟩
        rw [hD r c hr hc, Bool.or_eq_true] at hDt
        rcases hDt with hB | hC
        · exact hno' ⟨r, c, hr, hc, hB, hp⟩
        · exact hno ⟨r, c, hr, hc, hC, by rw [hpix r c hr hc hC]; exact hp⟩

theorem Xors.congr {B C : Nat → Nat → Bool} {s t : State} (h : Xors B s t)
    (hBC : ∀ r c, r < 32 → c < 64 → C r c = B r c) : Xors C s t := by
  refine ⟨h.draws, fun r c hr hc => by rw [h.pixels r c hr hc, hBC r c hr hc], ?_⟩
  have : (∃ r c, r < 32 ∧ c < 64 ∧ C r c = true ∧ pixelAt s.fb r c = true) ↔
      ∃ r c, r < 32 ∧ c < 64 ∧ B r c = true ∧ pixelAt s.fb r c = true := by
    constructor <;> rintro ⟨r, c, hr, hc, hb, hp⟩ <;> exact ⟨r, c, hr, hc, by simpa [hBC r c hr hc] using hb, hp⟩
  rw [this]
  exact h.flag

/-! ## A sprite row, then rows -/

/-- The pixels on which bits `lo` to `hi - 1` (from the left) of the byte `b`, drawn as sprite row `dr`, land set. -/
def rowBits (edge : SpriteEdge) (b : Byte) (sx sy dr lo hi r c : Nat) : Bool :=
  match spriteOffset edge sx sy r c with
  | none => false
  | some (dr', dc) => decide (dr' = dr ∧ lo ≤ dc ∧ dc < hi) && b.getLsbD (7 - dc)

theorem xors_drawBits (b : Byte) {sx sy dr : Nat} (hx : sx < 64) (hy : sy < 32) (hdr : dr < 32) (todo lo : Nat)
    (hlo : lo + todo ≤ 8) (s : State) :
    Xors (rowBits s.params.spriteEdge b sx sy dr lo (lo + todo)) s (drawBits b (sy + dr) sx todo lo s) := by
  induction todo generalizing lo s with
  | zero =>
    refine Xors.refl (fun r c _ _ => ?_) s
    unfold rowBits
    split
    · rfl
    · simp only [Nat.add_zero, Bool.and_eq_false_imp, decide_eq_true_eq]
      rintro ⟨_, h1, h2⟩
      omega
  | succ todo ih =>
    simp only [drawBits]
    have step : Xors (rowBits s.params.spriteEdge b sx sy dr lo (lo + 1)) s
        (if b.getLsbD (7 - lo) then plotPixel (sy + dr) (sx + lo) s else s) := by
      have hB : ∀ r c, r < 32 → c < 64 → (rowBits s.params.spriteEdge b sx sy dr lo (lo + 1) r c = true ↔
          b.getLsbD (7 - lo) = true ∧ lands s.params.spriteEdge (sy + dr) (sx + lo) r c) := by
        intro r c hr hc
        rw [lands_iff _ hx hy hr hc hdr (by omega)]
        unfold rowBits
        split
        · next h => simp [h]
        · next dr' dc h =>
          rw [h]
          simp only [Bool.and_eq_true, decide_eq_true_eq, Option.some.injEq, Prod.mk.injEq]
          constructor
          · rintro ⟨⟨h1, h2, h3⟩, h4⟩
            obtain rfl : dc = lo := by omega
            exact ⟨h4, h1, rfl⟩
          · rintro ⟨h4, h1, rfl⟩
            exact ⟨⟨h1, by omega, by omega⟩, h4⟩
      by_cases hb : b.getLsbD (7 - lo) = true
      · rw [if_pos hb]
        refine ⟨onlyDraws_plotPixel _ _ s, fun r c hr hc => ?_, ?_⟩
        · classical
          rw [pixelAt_plotPixel _ _ _ _ _ hr hc]
          have := hB r c hr hc
          by_cases hl : lands s.params.spriteEdge (sy + dr) (sx + lo) r c
          · rw [if_pos hl, this.mpr ⟨hb, hl⟩]
            simp
          · have hf : rowBits s.params.spriteEdge b sx sy dr lo (lo + 1) r c = false := by
              rw [Bool.eq_false_iff]
              exact fun h => hl (this.mp h).2
            rw [if_neg hl, hf]
            simp
        · rcases flag_plotPixel (sy + dr) (sx + lo) s with ⟨h1, r, c, hr, hc, hl, hp⟩ | ⟨h1, hno⟩
          · exact .inl ⟨h1, r, c, hr, hc, (hB r c hr hc).mpr ⟨hb, hl⟩, hp⟩
          · refine .inr ⟨h1, ?_⟩
            rintro ⟨r, c, hr, hc, hbit, hp⟩
            exact hno ⟨r, c, hr, hc, ((hB r c hr hc).mp hbit).2, hp⟩
      · rw [if_neg hb]
        refine Xors.refl (fun r c hr hc => ?_) s
        rw [Bool.eq_false_iff]
        exact fun h => hb ((hB r c hr hc).mp h).1
    have hpar := onlyDraws_params step.draws
    have rest := ih (lo + 1) (by omega)
      (if b.getLsbD (7 - lo) then plotPixel (sy + dr) (sx + lo) s else s)
    rw [hpar] at rest
    refine step.trans rest (fun r c _ _ h => ?_) (fun r c _ _ => ?_)
    · unfold rowBits at *
      split at h
      · simp at h
      · simp only [Bool.and_eq_true, decide_eq_true_eq] at h
        simp only [Bool.and_eq_false_imp, decide_eq_true_eq]
        omega
    · unfold rowBits
      split
      · rfl
      · rw [← Bool.and_or_distrib_right]
        congr 1
        rw [Bool.eq_iff_iff]
        simp only [Bool.or_eq_true, decide_eq_true_eq]
        omega

/-- The pixels on which rows `lo` to `hi - 1` of the sprite at I land set. -/
def spriteBits (s : State) (sx sy lo hi row col : Nat) : Bool :=
  match spriteOffset s.params.spriteEdge sx sy row col with
  | none => false
  | some (r, c) =>
    decide (lo ≤ r ∧ r < hi ∧ c < 8) &&
      match s.byteAt (s.i.toNat + r) with
      | some b => b.getLsbD (7 - c)
      | none => false

theorem spriteBit_eq (s : State) (sx sy n row col : Nat) :
    spriteBit s sx sy n row col = spriteBits s sx sy 0 n row col := by
  unfold spriteBit spriteBits
  cases spriteOffset s.params.spriteEdge sx sy row col with
  | none => rfl
  | some p =>
    obtain ⟨r, c⟩ := p
    by_cases h : r < n ∧ c < 8
    · cases hb : s.byteAt (s.i.toNat + r) <;> simp [h, hb]
    · simp [h]

theorem spriteBits_congr {s t : State} (h : onlyDraws s t) (sx sy lo hi row col : Nat) :
    spriteBits t sx sy lo hi row col = spriteBits s sx sy lo hi row col := by
  unfold spriteBits
  rw [onlyDraws_params h, onlyDraws_i h]
  simp only [onlyDraws_byteAt h]

/-- One sprite row. -/
theorem drawRow_spec {sx sy r : Nat} (hx : sx < 64) (hy : sy < 32) (hr : r < 32) (s : State) :
    (s.i.toNat + r ≤ 4095 ∧ ∃ t, drawRow sx sy r s = .went t ∧ Xors (spriteBits s sx sy r (r + 1)) s t) ∨
    (4095 < s.i.toNat + r ∧ drawRow sx sy r s = .raised .memoryFault s) := by
  unfold drawRow effectiveAddress
  split
  · next b hb =>
    refine .inl ⟨(byteAt_eq_some.mp hb).1, _, rfl, ?_⟩
    refine (xors_drawBits b hx hy hr 8 0 (by omega) s).congr fun row col _ _ => ?_
    unfold spriteBits rowBits
    split
    · rfl
    · next r' c' h =>
      by_cases hrr : r' = r
      · subst hrr
        simp [hb]
      · have h1 : ¬ (r ≤ r' ∧ r' < r + 1 ∧ c' < 8) := by omega
        have h2 : ¬ (r' = r ∧ 0 ≤ c' ∧ c' < 0 + 8) := by omega
        rw [decide_eq_false h1, decide_eq_false h2]
        simp
  · next hb => exact .inr ⟨byteAt_eq_none.mp hb, rfl⟩

/-- Rows `lo` to `lo + todo - 1`: where every byte exists all are drawn; else those before address 4096 are, and then the
read raises MemoryFault (44 R181). -/
theorem drawRows_spec {sx sy : Nat} (hx : sx < 64) (hy : sy < 32) (todo lo : Nat) (hlo : lo + todo ≤ 16) (s : State) :
    ∃ t, Xors (spriteBits s sx sy lo (lo + min todo (4096 - (s.i.toNat + lo)))) s t ∧
      drawRows sx sy todo lo s =
        if s.i.toNat + lo + todo ≤ 4096 ∨ todo = 0 then .went t else .raised .memoryFault t := by
  induction todo generalizing lo s with
  | zero =>
    refine ⟨s, Xors.refl (fun r c _ _ => ?_) s, by simp [drawRows]⟩
    unfold spriteBits
    split
    · rfl
    · next r c' _ =>
      have : ¬ (lo ≤ r ∧ r < lo + min 0 (4096 - (s.i.toNat + lo)) ∧ c' < 8) := by omega
      rw [decide_eq_false this]
      simp
  | succ todo ih =>
    rcases drawRow_spec hx hy (r := lo) (by omega) s with ⟨hin, t, he, hX⟩ | ⟨hout, he⟩
    · obtain ⟨u, hU, hu⟩ := ih (lo + 1) (by omega) t
      rw [onlyDraws_i hX.draws] at hU hu
      refine ⟨u, hX.trans hU (fun r c _ _ h => ?_) (fun r c _ _ => ?_), ?_⟩
      · rw [spriteBits_congr hX.draws]
        unfold spriteBits at *
        split at h
        · simp at h
        · next r' c' _ =>
          simp only [Bool.and_eq_true, decide_eq_true_eq] at h
          rw [decide_eq_false (by omega), Bool.false_and]
      · rw [spriteBits_congr hX.draws]
        unfold spriteBits
        split
        · rfl
        · rw [← Bool.and_or_distrib_right]
          congr 1
          rw [Bool.eq_iff_iff]
          simp only [Bool.or_eq_true, decide_eq_true_eq]
          omega
      · simp only [drawRows, he, andThen_went, hu]
        by_cases h1 : s.i.toNat + (lo + 1) + todo ≤ 4096
        · have h2 : s.i.toNat + lo + (todo + 1) ≤ 4096 := by omega
          simp [h1, h2]
        · have h2 : ¬ s.i.toNat + lo + (todo + 1) ≤ 4096 := by omega
          have h3 : todo ≠ 0 := by omega
          simp [h1, h2, h3]
    · refine ⟨s, Xors.refl (fun r c _ _ => ?_) s, ?_⟩
      · unfold spriteBits
        split
        · rfl
        · next r' c' _ =>
          rw [decide_eq_false (by omega), Bool.false_and]
      · have h1 : ¬ s.i.toNat + lo + (todo + 1) ≤ 4096 := by omega
        simp [drawRows, he, h1]

end Sys2Proof.Machine
end

