-- ==== Sys2Proof/Laws/PerInstr.lean ====
section
/-! SUPPORT. Statements for all instructions, one lemma per constructor. Family `OpcodeRow`: the word of an instruction
matches the mask and value of its row of the opcode map (spec/30_encoding R85). -/

namespace Sys2Proof.Laws.OpcodeRow

/-- The instruction's word matches its row of R85. -/
def Statement (i : Instr) : Prop :=
  ∃ r, r ∈ opcodeMap ∧ r.number = i.rowNumber ∧ encode i &&& r.mask = r.value

theorem packNibbles_and (a b c d a' b' c' d' : Nibble) :
    packNibbles a b c d &&& packNibbles a' b' c' d' = packNibbles (a &&& a') (b &&& b') (c &&& c') (d &&& d') := by
  have h : (a ++ b ++ c ++ d) &&& (a' ++ b' ++ c' ++ d') = (a &&& a') ++ (b &&& b') ++ (c &&& c') ++ (d &&& d') := by
    rw [BitVec.and_append, BitVec.and_append, BitVec.and_append]
  exact h

theorem packByte_and (a b : Nibble) (c : Byte) (a' b' : Nibble) (c' : Byte) :
    packByte a b c &&& packByte a' b' c' = packByte (a &&& a') (b &&& b') (c &&& c') := by
  have h : (a ++ b ++ c) &&& (a' ++ b' ++ c') = (a &&& a') ++ (b &&& b') ++ (c &&& c') := by
    rw [BitVec.and_append, BitVec.and_append]
  exact h

theorem packAddr_and (a : Nibble) (c : Addr) (a' : Nibble) (c' : Addr) :
    packAddr a c &&& packAddr a' c' = packAddr (a &&& a') (c &&& c') := by
  have h : (a ++ c) &&& (a' ++ c') = (a &&& a') ++ (c &&& c') := by
    rw [BitVec.and_append]
  exact h

theorem nibble_and_ones (a : Nibble) : a &&& 0xF = a := by revert a; decide

theorem byte_and_ones (b : Byte) : b &&& 0xFF = b := by
  have : (0xFF : Byte) = BitVec.allOnes 8 := by decide
  rw [this, BitVec.and_allOnes]

/-- Mask 0xF000 keeps `op`. -/
theorem packAddr_mask (a : Nibble) (nnn : Addr) : packAddr a nnn &&& 0xF000 = packAddr a 0 := by
  have : (0xF000 : Word) = packAddr 0xF 0 := by decide
  rw [this, packAddr_and, nibble_and_ones]
  simp

theorem packByte_mask_op (a x : Nibble) (nn : Byte) : packByte a x nn &&& 0xF000 = packByte a 0 0 := by
  have : (0xF000 : Word) = packByte 0xF 0 0 := by decide
  rw [this, packByte_and, nibble_and_ones]
  simp

theorem packNibbles_mask_op (a x y n : Nibble) : packNibbles a x y n &&& 0xF000 = packNibbles a 0 0 0 := by
  have : (0xF000 : Word) = packNibbles 0xF 0 0 0 := by decide
  rw [this, packNibbles_and, nibble_and_ones]
  simp

/-- Mask 0xF00F keeps `op` and `n`. -/
theorem packNibbles_mask_ends (a x y n : Nibble) : packNibbles a x y n &&& 0xF00F = packNibbles a 0 0 n := by
  have : (0xF00F : Word) = packNibbles 0xF 0 0 0xF := by decide
  rw [this, packNibbles_and, nibble_and_ones, nibble_and_ones]
  simp

/-- Mask 0xF0FF keeps `op` and `nn`. -/
theorem packByte_mask_ends (a x : Nibble) (nn : Byte) : packByte a x nn &&& 0xF0FF = packByte a 0 nn := by
  have : (0xF0FF : Word) = packByte 0xF 0 0xFF := by decide
  rw [this, packByte_and, nibble_and_ones, byte_and_ones]
  simp

theorem cls (x : Nibble) : Statement (.cls x) :=
  ⟨⟨1, 0xF0FF, 0x00E0⟩, by decide, rfl, (packByte_mask_ends _ _ _).trans (by decide)⟩

theorem ret (x : Nibble) : Statement (.ret x) :=
  ⟨⟨2, 0xF0FF, 0x00EE⟩, by decide, rfl, (packByte_mask_ends _ _ _).trans (by decide)⟩

theorem jp (nnn : Addr) : Statement (.jp nnn) :=
  ⟨⟨3, 0xF000, 0x1000⟩, by decide, rfl, (packAddr_mask _ _).trans (by decide)⟩

theorem call (nnn : Addr) : Statement (.call nnn) :=
  ⟨⟨4, 0xF000, 0x2000⟩, by decide, rfl, (packAddr_mask _ _).trans (by decide)⟩

theorem seImm (x : Nibble) (nn : Byte) : Statement (.seImm x nn) :=
  ⟨⟨5, 0xF000, 0x3000⟩, by decide, rfl, (packByte_mask_op _ _ _).trans (by decide)⟩

theorem sneImm (x : Nibble) (nn : Byte) : Statement (.sneImm x nn) :=
  ⟨⟨6, 0xF000, 0x4000⟩, by decide, rfl, (packByte_mask_op _ _ _).trans (by decide)⟩

theorem seReg (x : Nibble) (y : Nibble) : Statement (.seReg x y) :=
  ⟨⟨7, 0xF00F, 0x5000⟩, by decide, rfl, (packNibbles_mask_ends _ _ _ _).trans (by decide)⟩

theorem ldImm (x : Nibble) (nn : Byte) : Statement (.ldImm x nn) :=
  ⟨⟨8, 0xF000, 0x6000⟩, by decide, rfl, (packByte_mask_op _ _ _).trans (by decide)⟩

theorem addImm (x : Nibble) (nn : Byte) : Statement (.addImm x nn) :=
  ⟨⟨9, 0xF000, 0x7000⟩, by decide, rfl, (packByte_mask_op _ _ _).trans (by decide)⟩

theorem ldReg (x : Nibble) (y : Nibble) : Statement (.ldReg x y) :=
  ⟨⟨10, 0xF00F, 0x8000⟩, by decide, rfl, (packNibbles_mask_ends _ _ _ _).trans (by decide)⟩

theorem orReg (x : Nibble) (y : Nibble) : Statement (.orReg x y) :=
  ⟨⟨11, 0xF00F, 0x8001⟩, by decide, rfl, (packNibbles_mask_ends _ _ _ _).trans (by decide)⟩

theorem andReg (x : Nibble) (y : Nibble) : Statement (.andReg x y) :=
  ⟨⟨12, 0xF00F, 0x8002⟩, by decide, rfl, (packNibbles_mask_ends _ _ _ _).trans (by decide)⟩

theorem xorReg (x : Nibble) (y : Nibble) : Statement (.xorReg x y) :=
  ⟨⟨13, 0xF00F, 0x8003⟩, by decide, rfl, (packNibbles_mask_ends _ _ _ _).trans (by decide)⟩

theorem addReg (x : Nibble) (y : Nibble) : Statement (.addReg x y) :=
  ⟨⟨14, 0xF00F, 0x8004⟩, by decide, rfl, (packNibbles_mask_ends _ _ _ _).trans (by decide)⟩

theorem subReg (x : Nibble) (y : Nibble) : Statement (.subReg x y) :=
  ⟨⟨15, 0xF00F, 0x8005⟩, by decide, rfl, (packNibbles_mask_ends _ _ _ _).trans (by decide)⟩

theorem shr (x : Nibble) (y : Nibble) : Statement (.shr x y) :=
  ⟨⟨16, 0xF00F, 0x8006⟩, by decide, rfl, (packNibbles_mask_ends _ _ _ _).trans (by decide)⟩

theorem subnReg (x : Nibble) (y : Nibble) : Statement (.subnReg x y) :=
  ⟨⟨17, 0xF00F, 0x8007⟩, by decide, rfl, (packNibbles_mask_ends _ _ _ _).trans (by decide)⟩

theorem shl (x : Nibble) (y : Nibble) : Statement (.shl x y) :=
  ⟨⟨18, 0xF00F, 0x800E⟩, by decide, rfl, (packNibbles_mask_ends _ _ _ _).trans (by decide)⟩

theorem sneReg (x : Nibble) (y : Nibble) : Statement (.sneReg x y) :=
  ⟨⟨19, 0xF00F, 0x9000⟩, by decide, rfl, (packNibbles_mask_ends _ _ _ _).trans (by decide)⟩

theorem ldI (nnn : Addr) : Statement (.ldI nnn) :=
  ⟨⟨20, 0xF000, 0xA000⟩, by decide, rfl, (packAddr_mask _ _).trans (by decide)⟩

theorem jpV0 (nnn : Addr) : Statement (.jpV0 nnn) :=
  ⟨⟨21, 0xF000, 0xB000⟩, by decide, rfl, (packAddr_mask _ _).trans (by decide)⟩

theorem rnd (x : Nibble) (nn : Byte) : Statement (.rnd x nn) :=
  ⟨⟨22, 0xF000, 0xC000⟩, by decide, rfl, (packByte_mask_op _ _ _).trans (by decide)⟩

theorem drw (x : Nibble) (y : Nibble) (n : Nibble) : Statement (.drw x y n) :=
  ⟨⟨23, 0xF000, 0xD000⟩, by decide, rfl, (packNibbles_mask_op _ _ _ _).trans (by decide)⟩

theorem skp (x : Nibble) : Statement (.skp x) :=
  ⟨⟨24, 0xF0FF, 0xE09E⟩, by decide, rfl, (packByte_mask_ends _ _ _).trans (by decide)⟩

theorem sknp (x : Nibble) : Statement (.sknp x) :=
  ⟨⟨25, 0xF0FF, 0xE0A1⟩, by decide, rfl, (packByte_mask_ends _ _ _).trans (by decide)⟩

theorem ldVxDt (x : Nibble) : Statement (.ldVxDt x) :=
  ⟨⟨26, 0xF0FF, 0xF007⟩, by decide, rfl, (packByte_mask_ends _ _ _).trans (by decide)⟩

theorem ldVxK (x : Nibble) : Statement (.ldVxK x) :=
  ⟨⟨27, 0xF0FF, 0xF00A⟩, by decide, rfl, (packByte_mask_ends _ _ _).trans (by decide)⟩

theorem ldDtVx (x : Nibble) : Statement (.ldDtVx x) :=
  ⟨⟨28, 0xF0FF, 0xF015⟩, by decide, rfl, (packByte_mask_ends _ _ _).trans (by decide)⟩

theorem ldStVx (x : Nibble) : Statement (.ldStVx x) :=
  ⟨⟨29, 0xF0FF, 0xF018⟩, by decide, rfl, (packByte_mask_ends _ _ _).trans (by decide)⟩

theorem addI (x : Nibble) : Statement (.addI x) :=
  ⟨⟨30, 0xF0FF, 0xF01E⟩, by decide, rfl, (packByte_mask_ends _ _ _).trans (by decide)⟩

theorem ldF (x : Nibble) : Statement (.ldF x) :=
  ⟨⟨31, 0xF0FF, 0xF029⟩, by decide, rfl, (packByte_mask_ends _ _ _).trans (by decide)⟩

theorem ldB (x : Nibble) : Statement (.ldB x) :=
  ⟨⟨32, 0xF0FF, 0xF033⟩, by decide, rfl, (packByte_mask_ends _ _ _).trans (by decide)⟩

theorem ldMemVx (x : Nibble) : Statement (.ldMemVx x) :=
  ⟨⟨33, 0xF0FF, 0xF055⟩, by decide, rfl, (packByte_mask_ends _ _ _).trans (by decide)⟩

theorem ldVxMem (x : Nibble) : Statement (.ldVxMem x) :=
  ⟨⟨34, 0xF0FF, 0xF065⟩, by decide, rfl, (packByte_mask_ends _ _ _).trans (by decide)⟩

end Sys2Proof.Laws.OpcodeRow
end

