-- ==== Sys2Proof/Laws/Step.lean ====
section
/-! SUPPORT. Everything a Tick, a PollStep and a step can do, said once (spec/40 R100, spec/46 R222, R231). -/

namespace Sys2Proof.Machine

/-- The four ways a Tick goes. -/
theorem tick_cases (s : State) :
    (s.halted = true ∧ tick s = .next s) ∨
    (s.halted = false ∧ 4094 < s.pc.toNat ∧ tick s = .next (raise .memoryFault 0x0000 s.pc s)) ∨
    (∃ w r, s.halted = false ∧ s.pc.toNat ≤ 4094 ∧ s.wordAt s.pc.toNat = some w ∧ decodeWord w = .error r ∧
      tick s = .next (raise .decodeError w s.pc (s.setPc (s.pc + 2)))) ∨
    (∃ w i, s.halted = false ∧ s.pc.toNat ≤ 4094 ∧ s.wordAt s.pc.toNat = some w ∧ decodeWord w = .ok i ∧
      tick s = exec i (s.setPc (s.pc + 2))) := by
  unfold tick
  cases hh : s.halted with
  | true => exact .inl ⟨rfl, rfl⟩
  | false =>
    refine .inr ?_
    cases hw : s.wordAt s.pc.toNat with
    | none =>
      refine .inl ⟨rfl, ?_, rfl⟩
      unfold State.wordAt at hw
      split at hw
      · simp at hw
      · omega
    | some w =>
      have hpc : s.pc.toNat ≤ 4094 := by
        unfold State.wordAt at hw
        split at hw
        · omega
        · simp at hw
      refine .inr ?_
      cases hd : decodeWord w with
      | error r => exact .inl ⟨w, r, rfl, hpc, rfl, hd, by simp [decodeAndExec, hd]⟩
      | ok i => exact .inr ⟨w, i, rfl, hpc, rfl, hd, by simp [decodeAndExec, hd]⟩

theorem timeInOrder_iff {now : Micros} {s : State} :
    timeInOrder now s = true ↔
      s.hostTime.toNat ≤ now.toNat ∧ s.last.cpu.toNat ≤ now.toNat ∧ s.last.timer.toNat ≤ now.toNat ∧ s.last.display.toNat ≤ now.toNat := by
  simp [timeInOrder, and_assoc]

/-- A clock fires exactly when a period has passed (46 R221), `now` being no earlier than its last firing. -/
theorem fires_iff {now last : Micros} {freq : Nat} (h : last.toNat ≤ now.toNat) :
    fires now last freq = true ↔ due now last freq := by
  unfold fires due period
  rw [decide_eq_true_iff]
  generalize 1000000 / freq = c
  omega

/-- Sampling changes the clocks and the inputs alone, and keeps `now` as the host's time (46 R221, R222, R227). -/
theorem sample_spec (p : PollInput) (s : State) :
    changesOnly [] [.clocks, .inputs] s (sample p s) ∧ (sample p s).hostTime = p.now ∧
      (sample p s).last = restamp p.now (firedAt p.now s) s.last := by
  refine ⟨⟨fun _ _ => rfl, fun q hq => ?_, fun _ => rfl⟩, rfl, rfl⟩
  cases q <;> simp_all [Piece.same, sample]

/-- The ways a PollStep goes. -/
theorem pollStep_cases (p : PollInput) (s : State) :
    (s.halted = true ∧ pollStep p s = .next s) ∨
    (s.halted = false ∧ timeInOrder p.now s = false ∧ pollStep p s = .refused .timeWentBack) ∨
    (s.halted = false ∧ timeInOrder p.now s = true ∧ (firedAt p.now s).cpu = true ∧
      pollStep p s = mapNext (afterTick (firedAt p.now s)) (tick (sample p s))) ∨
    (s.halted = false ∧ timeInOrder p.now s = true ∧ (firedAt p.now s).cpu = false ∧
      pollStep p s = .next (afterTick (firedAt p.now s) (sample p s))) := by
  unfold pollStep
  cases hh : s.halted with
  | true => exact .inl ⟨rfl, rfl⟩
  | false =>
    cases ht : timeInOrder p.now s with
    | false => exact .inr (.inl ⟨rfl, rfl, rfl⟩)
    | true =>
      cases hf : (firedAt p.now s).cpu with
      | true => exact .inr (.inr (.inl ⟨rfl, rfl, rfl, by simp⟩))
      | false => exact .inr (.inr (.inr ⟨rfl, rfl, rfl, by simp [mapNext]⟩))

theorem mapNext_eq_next {g : State → State} {o : Host.Outcome State Fault Refusal} {t : State}
    (h : mapNext g o = .next t) : ∃ u, o = .next u ∧ t = g u := by
  cases o <;> simp_all [mapNext]

/-- After the Tick only DT, ST, DIRTY and the display port can change (60 R257). -/
theorem afterTick_spec (f : Fired) (s : State) :
    keepsRegsBut [] s (afterTick f s) ∧ keepsMemory s (afterTick f s) ∧
      keepsPiecesBut [.delayTimer, .soundTimer, .dirtyFlag, .displayPort] s (afterTick f s) := by
  unfold afterTick refresh decrementTimers
  refine ⟨fun x _ => ?_, fun a => ?_, fun p hp => ?_⟩
  · repeat' split
    all_goals rfl
  · repeat' split
    all_goals rfl
  · cases p <;> simp_all [Piece.same] <;> (repeat' split) <;> simp_all

/-- The ways a reset goes (70 R290). -/
theorem resetCore_next {p : Params} {rom : List Byte} {now : Micros} {todo : List HostEvent} {t : State}
    (h : resetCore p rom now todo = .next t) :
    romFits rom = true ∧ p.wellFormed = true ∧ t = resetWith p rom now todo := by
  unfold resetCore at h
  split at h
  · simp at h
  · split at h
    · simp at h
    · split at h
      · simp at h
      · next h1 h2 h3 =>
        simp only [Bool.not_eq_false] at h1 h2 h3
        refine ⟨h1, by simp [Params.wellFormed, h2, h3], ?_⟩
        simpa using h.symm

/-- A reset that is not refused leaves a canonical memory. -/
theorem wf_resetWith {p : Params} {rom : List Byte} (h : romFits rom = true) (now : Micros) (todo : List HostEvent) :
    (resetWith p rom now todo).mem.wf (resetWith p rom now todo).params = true := by
  have hr : rom.length ≤ romMax := of_decide_eq_true h
  exact wf_writeList rom (wf_nil p) (by simp only [romBase, memSize]; unfold romMax at hr; omega)

/-- The ways a step goes. -/
theorem step_cases (s : State) :
    (s.host = [] ∧ step s = .next s) ∨
    (∃ p rest, s.host = .poll p :: rest ∧ step s = pollStep p { s with host := rest }) ∨
    (∃ params rom now rest, s.host = .reset params rom now :: rest ∧ step s = resetCore params rom now rest) := by
  unfold step hostStep
  split
  · next h => exact .inl ⟨h, rfl⟩
  · next p rest h => exact .inr (.inl ⟨p, rest, h, rfl⟩)
  · next params rom now rest h => exact .inr (.inr ⟨params, rom, now, rest, h, rfl⟩)

end Sys2Proof.Machine
end

