-- ==== Sys2Proof/Tests/Slice0.lean ====
section
/-! SUPPORT. Tests: each well-formedness check refusing an ill-formed term; a word of every row written out from
spec/30_encoding R82 and R85; single steps whose results are those of spec/95_test_vectors; and, for every statement with
hypotheses, a state and operands that meet them. -/

namespace Sys2Proof.Tests

set_option Elab.async false

open Sys2Proof.Machine

/-! ## Helpers -/

/-- A state with registers written. -/
def withRegs (l : List (Nibble × Byte)) (s : State) : State := l.foldl (fun t p => t.setReg p.1 p.2) s
/-- A state with bytes written from an address on. -/
def withBytes (a : Nat) (bs : List Byte) (s : State) : State := { s with mem := Memory.writeList s.params s.mem a bs }
/-- A state with pixels lit. -/
def withPixels (l : List (Nat × Nat)) (s : State) : State :=
  { s with fb := l.foldl (fun f p => paintPixel f p.1 p.2 true) s.fb }
/-- The reset state with PC moved. -/
def pcAt (a : Word) : State := { State.reset with pc := a }
/-- The word at PC, ticked once. -/
def run (w : Word) (s : State) : Host.Outcome State Fault Refusal := tick (storeAtPc w s)
/-- What a next state shows. -/
def after {α : Type} (o : Host.Outcome State Fault Refusal) (f : State → α) : Option α :=
  match o with
  | .next t => some (f t)
  | .fault _ => none
  | .refused _ => none
/-- The halt record: HALTED, ERR_CAUSE, ERR_OPCODE, ERR_PC. -/
def halt (t : State) : Bool × BitVec 3 × Word × Word := (t.halted, t.errCause, t.errOpcode, t.errPc)
/-- Pixels of a row in a range of columns. -/
def cols (t : State) (row lo n : Nat) : List Bool := (List.range n).map fun k => pixelAt t.fb row (lo + k)

/-! ## Well-formedness (70_reset R290, 46 R220, 20_memory R51, R66) -/

/-- 3585 bytes are one too many. -/
theorem test_wf_rom_too_long : romFits (List.replicate 3585 0x00) = false := by decide +kernel
theorem test_wf_rom_longest : romFits (List.replicate 3584 0x00) = true := by decide +kernel
theorem test_wf_cpu_zero : Params.cpuHzLegal { defaultParams with cpuHz := 0 } = false := by decide
theorem test_wf_font_outside : Params.fontFits { defaultParams with fontBase := 4017 } = false := by decide
theorem test_wf_params : Params.wellFormed defaultParams = true := by decide

/-! ## Decoding: one word a row, its fields laid out in the nibbles of R82 -/

theorem test_decode_cls : decodeWord 0x00E0 = .ok (.cls 0) := by decide
theorem test_decode_cls_x_ignored : decodeWord 0x05E0 = .ok (.cls 5) := by decide
theorem test_decode_ret : decodeWord 0x00EE = .ok (.ret 0) := by decide
theorem test_decode_ret_x_ignored : decodeWord 0x0AEE = .ok (.ret 0xA) := by decide
theorem test_decode_jp : decodeWord 0x1ABC = .ok (.jp 0xABC) := by decide
theorem test_decode_call : decodeWord 0x2ABC = .ok (.call 0xABC) := by decide
theorem test_decode_seImm : decodeWord 0x3244 = .ok (.seImm 2 0x44) := by decide
theorem test_decode_sneImm : decodeWord 0x4C81 = .ok (.sneImm 0xC 0x81) := by decide
theorem test_decode_seReg : decodeWord 0x5120 = .ok (.seReg 1 2) := by decide
theorem test_decode_ldImm : decodeWord 0x6A3F = .ok (.ldImm 0xA 0x3F) := by decide
theorem test_decode_addImm : decodeWord 0x71FF = .ok (.addImm 1 0xFF) := by decide
theorem test_decode_ldReg : decodeWord 0x8AF0 = .ok (.ldReg 0xA 0xF) := by decide
theorem test_decode_orReg : decodeWord 0x8121 = .ok (.orReg 1 2) := by decide
theorem test_decode_andReg : decodeWord 0x8122 = .ok (.andReg 1 2) := by decide
theorem test_decode_xorReg : decodeWord 0x8123 = .ok (.xorReg 1 2) := by decide
theorem test_decode_addReg : decodeWord 0x8124 = .ok (.addReg 1 2) := by decide
theorem test_decode_subReg : decodeWord 0x8125 = .ok (.subReg 1 2) := by decide
theorem test_decode_shr : decodeWord 0x8126 = .ok (.shr 1 2) := by decide
theorem test_decode_subnReg : decodeWord 0x8127 = .ok (.subnReg 1 2) := by decide
theorem test_decode_shl : decodeWord 0x812E = .ok (.shl 1 2) := by decide
theorem test_decode_sneReg : decodeWord 0x9120 = .ok (.sneReg 1 2) := by decide
theorem test_decode_ldI : decodeWord 0xAFFF = .ok (.ldI 0xFFF) := by decide
theorem test_decode_jpV0 : decodeWord 0xB300 = .ok (.jpV0 0x300) := by decide
theorem test_decode_rnd : decodeWord 0xC30F = .ok (.rnd 3 0x0F) := by decide
theorem test_decode_drw : decodeWord 0xD125 = .ok (.drw 1 2 5) := by decide
theorem test_decode_skp : decodeWord 0xE59E = .ok (.skp 5) := by decide
theorem test_decode_sknp : decodeWord 0xE5A1 = .ok (.sknp 5) := by decide
theorem test_decode_ldVxDt : decodeWord 0xF307 = .ok (.ldVxDt 3) := by decide
theorem test_decode_ldVxK : decodeWord 0xF10A = .ok (.ldVxK 1) := by decide
theorem test_decode_ldDtVx : decodeWord 0xF315 = .ok (.ldDtVx 3) := by decide
theorem test_decode_ldStVx : decodeWord 0xF318 = .ok (.ldStVx 3) := by decide
theorem test_decode_addI : decodeWord 0xF11E = .ok (.addI 1) := by decide
theorem test_decode_ldF : decodeWord 0xF029 = .ok (.ldF 0) := by decide
theorem test_decode_ldB : decodeWord 0xF033 = .ok (.ldB 0) := by decide
theorem test_decode_ldMemVx : decodeWord 0xF155 = .ok (.ldMemVx 1) := by decide
theorem test_decode_ldVxMem : decodeWord 0xF265 = .ok (.ldVxMem 2) := by decide

/-- Bytes in memory order, high byte first, the rest left over (R80). -/
theorem test_decode_bytes : decode [0x6A, 0x3F, 0x12] = .ok (.ldImm 0xA 0x3F, [0x12]) := by decide
theorem test_decode_one_byte : decode [0x6A] = .error .fewerThanTwoBytes := by decide
/-- T1 to T6: the undefined words of R86. -/
theorem test_decode_undefined :
    ([0x0000, 0x00E1, 0x5121, 0x8008, 0xE000, 0xF000, 0xFFFF] : List Word).map (fun w => decodeTableWord 16 w.toNat) =
      [none, none, none, none, none, none, none] := by decide +kernel
theorem test_decodeTableWord : decodeTableWord 16 0x6A3F = some (.ldImm 0xA 0x3F) := by decide

/-! ## Single steps (spec/95_test_vectors, by row) -/

/-- T3. -/
theorem test_fetch_undefined :
    after (run 0x5121 State.reset) (fun t => (halt t, t.pc)) = some ((true, 1, 0x5121, 0x200), 0x202) := by decide +kernel
/-- T9. -/
theorem test_fetch_last_word :
    after (run 0x6A3F (pcAt 0xFFE)) (fun t => (t.reg 0xA, t.pc, t.halted)) = some (0x3F, 0x1000, false) := by decide +kernel
/-- T20, the second Tick. -/
theorem test_fetch_past_end :
    after (tick (pcAt 0xFFF)) (fun t => (halt t, t.pc)) = some ((true, 2, 0x0000, 0xFFF), 0xFFF) := by decide +kernel
/-- T10, the second Tick. -/
theorem test_fetch_odd_pc :
    after (run 0x6A3F (pcAt 0x203)) (fun t => (t.reg 0xA, t.pc)) = some (0x3F, 0x205) := by decide +kernel
/-- T11. -/
theorem test_halted :
    after (pollStep ⟨5, 0, 0⟩ { State.reset with halted := true, errCause := 1, pc := 0x202, dt := 9 }) (fun t => (t.pc, t.dt, t.errCause)) = some (0x202, 9, 1) := by decide +kernel
/-- T111. -/
theorem test_cls :
    after (run 0x00E0 (withPixels [(31, 63)] (withRegs [(0xF, 3)] State.reset))) (fun t => (pixelAt t.fb 31 63, t.dirty, t.reg 0xF, t.pc)) = some (false, true, 3, 0x202) := by decide +kernel
/-- T7. -/
theorem test_cls_x_ignored :
    after (run 0x05E0 (withPixels [(31, 63)] State.reset)) (fun t => (pixelAt t.fb 31 63, t.dirty, t.pc)) = some (false, true, 0x202) := by decide +kernel
/-- T23. -/
theorem test_ret :
    after (run 0x00EE { pcAt 0x216 with stack := (List.replicate 16 0x0000).set 0 0x20A, sp := 1 }) (fun t => (t.pc, t.sp, t.stack[0]?)) = some (0x20A, 0, some 0x20A) := by decide +kernel
/-- T24. -/
theorem test_ret_underflow :
    after (run 0x00EE State.reset) (fun t => (halt t, t.pc, t.sp)) = some ((true, 3, 0x00EE, 0x200), 0x202, 0) := by decide +kernel
/-- X5. -/
theorem test_jp :
    after (run 0x1300 (pcAt 0x456)) (fun t => (t.pc, t.sp)) = some (0x300, 0) := by decide +kernel
/-- T22. -/
theorem test_call :
    after (run 0x2210 (pcAt 0x208)) (fun t => (t.pc, t.sp, t.stack[0]?)) = some (0x210, 1, some 0x20A) := by decide +kernel
/-- T26. -/
theorem test_call_overflow :
    after (run 0x2200 { State.reset with stack := List.replicate 16 0x0202, sp := 16 }) (fun t => (halt t, t.pc, t.sp)) = some ((true, 4, 0x2200, 0x200), 0x202, 16) := by decide +kernel
/-- T27. -/
theorem test_seImm :
    after (run 0x3244 (withRegs [(2, 0x44)] State.reset)) (fun t => t.pc) = some 0x204 := by decide +kernel
/-- T27. -/
theorem test_seImm_not :
    after (run 0x3244 (withRegs [(2, 0x45)] State.reset)) (fun t => t.pc) = some 0x202 := by decide +kernel
/-- T28. -/
theorem test_sneImm :
    after (run 0x4244 (withRegs [(2, 0x44)] State.reset)) (fun t => t.pc) = some 0x202 := by decide +kernel
/-- T28. -/
theorem test_sneImm_skips :
    after (run 0x4244 State.reset) (fun t => t.pc) = some 0x204 := by decide +kernel
/-- T29. -/
theorem test_seReg :
    after (run 0x5120 (withRegs [(1, 7), (2, 7)] (pcAt 0x300))) (fun t => t.pc) = some 0x304 := by decide +kernel
/-- T29. -/
theorem test_seReg_not :
    after (run 0x5120 (withRegs [(1, 7), (2, 8)] (pcAt 0x300))) (fun t => t.pc) = some 0x302 := by decide +kernel
/-- T31. -/
theorem test_sneReg :
    after (run 0x9120 (withRegs [(1, 7), (2, 8)] (pcAt 0x300))) (fun t => t.pc) = some 0x304 := by decide +kernel
/-- T31. -/
theorem test_sneReg_not :
    after (run 0x9120 (withRegs [(1, 7), (2, 7)] (pcAt 0x300))) (fun t => t.pc) = some 0x302 := by decide +kernel
/-- T32. -/
theorem test_jpV0 :
    after (run 0xB300 (withRegs [(0, 4)] State.reset)) (fun t => t.pc) = some 0x304 := by decide +kernel
/-- T33. -/
theorem test_jpV0_past_end :
    after (run 0xBFFF (withRegs [(0, 0xFF)] State.reset)) (fun t => (t.pc, t.halted)) = some (0x10FE, false) := by decide +kernel
/-- X4. -/
theorem test_ldImm :
    after (run 0x6A3F State.reset) (fun t => (t.reg 0xA, t.pc)) = some (0x3F, 0x202) := by decide +kernel
/-- T40. -/
theorem test_addImm :
    after (run 0x7301 (withRegs [(3, 0xFF), (0xF, 5)] State.reset)) (fun t => (t.reg 3, t.reg 0xF)) = some (0x00, 0x05) := by decide +kernel
/-- T41. -/
theorem test_ldReg :
    after (run 0x8120 (withRegs [(1, 0x12), (2, 0x34), (0xF, 7)] State.reset)) (fun t => (t.reg 1, t.reg 0xF)) = some (0x34, 0x07) := by decide +kernel
/-- T42. -/
theorem test_orReg :
    after (run 0x8121 (withRegs [(1, 0xF0), (2, 0x0F), (0xF, 7)] State.reset)) (fun t => (t.reg 1, t.reg 0xF)) = some (0xFF, 0x07) := by decide +kernel
/-- T43. -/
theorem test_andReg :
    after (run 0x8122 (withRegs [(1, 0xF0), (2, 0x3C), (0xF, 7)] State.reset)) (fun t => (t.reg 1, t.reg 0xF)) = some (0x30, 0x07) := by decide +kernel
/-- T44. -/
theorem test_xorReg :
    after (run 0x8123 (withRegs [(1, 0xFF), (2, 0x0F), (0xF, 7)] State.reset)) (fun t => (t.reg 1, t.reg 0xF)) = some (0xF0, 0x07) := by decide +kernel
/-- T47. -/
theorem test_addReg :
    after (run 0x8124 (withRegs [(1, 0xFF), (2, 0x01)] State.reset)) (fun t => (t.reg 1, t.reg 0xF)) = some (0x00, 1) := by decide +kernel
/-- T49. -/
theorem test_addReg_into_vf :
    after (run 0x8F14 (withRegs [(0xF, 0x90), (1, 0x90)] State.reset)) (fun t => t.reg 0xF) = some 1 := by decide +kernel
/-- T52. -/
theorem test_subReg :
    after (run 0x8125 (withRegs [(1, 3), (2, 5), (0xF, 7)] State.reset)) (fun t => (t.reg 1, t.reg 0xF)) = some (0xFE, 0) := by decide +kernel
/-- T56. -/
theorem test_subReg_from_vf :
    after (run 0x81F5 (withRegs [(1, 5), (0xF, 1)] State.reset)) (fun t => (t.reg 1, t.reg 0xF)) = some (4, 1) := by decide +kernel
/-- T58. -/
theorem test_shr :
    after (run 0x8126 (withRegs [(1, 5), (2, 0xEE)] State.reset)) (fun t => (t.reg 1, t.reg 2, t.reg 0xF)) = some (2, 0xEE, 1) := by decide +kernel
/-- T62. -/
theorem test_shr_vf :
    after (run 0x8F16 (withRegs [(0xF, 0xFF)] State.reset)) (fun t => t.reg 0xF) = some 0 := by decide +kernel
/-- T63. -/
theorem test_subnReg :
    after (run 0x8127 (withRegs [(1, 3), (2, 5)] State.reset)) (fun t => (t.reg 1, t.reg 0xF)) = some (2, 1) := by decide +kernel
/-- T66. -/
theorem test_subnReg_from_vf :
    after (run 0x81F7 (withRegs [(1, 3), (0xF, 1)] State.reset)) (fun t => (t.reg 1, t.reg 0xF)) = some (0xFE, 0) := by decide +kernel
/-- T67. -/
theorem test_shl :
    after (run 0x812E (withRegs [(1, 0x81), (2, 0xEE)] State.reset)) (fun t => (t.reg 1, t.reg 2, t.reg 0xF)) = some (2, 0xEE, 1) := by decide +kernel
/-- T69. -/
theorem test_shl_vf :
    after (run 0x8F1E (withRegs [(0xF, 0xFF)] State.reset)) (fun t => t.reg 0xF) = some 2 := by decide +kernel
/-- T70. -/
theorem test_rnd :
    after (run 0xC30F { State.reset with rand := 0xA7 }) (fun t => t.reg 3) = some 0x07 := by decide +kernel
/-- T80. -/
theorem test_ldI :
    after (run 0xA300 State.reset) (fun t => t.i) = some 0x0300 := by decide +kernel
/-- T82. -/
theorem test_addI :
    after (run 0xF11E (withRegs [(1, 1), (0xF, 7)] { State.reset with i := 0xFFFF })) (fun t => (t.i, t.reg 0xF)) = some (0x0000, 7) := by decide +kernel
/-- T86. -/
theorem test_ldF :
    after (run 0xF029 (withRegs [(0, 0xFF)] State.reset)) (fun t => t.i) = some 0x054B := by decide +kernel
/-- X8. -/
theorem test_ldB :
    after (run 0xF033 (withRegs [(0, 0x9D)] { State.reset with i := 0x300 })) (fun t => ([t.byteAt 0x300, t.byteAt 0x301, t.byteAt 0x302], t.i)) = some ([some 1, some 5, some 7], 0x300) := by decide +kernel
/-- T89. -/
theorem test_ldB_faults :
    after (run 0xF033 (withRegs [(0, 157)] { State.reset with i := 0xFFE })) (fun t => (t.byteAt 0xFFE, t.byteAt 0xFFF, halt t)) = some (some 1, some 5, (true, 2, 0xF033, 0x200)) := by decide +kernel
/-- T91. -/
theorem test_ldMemVx :
    after (run 0xF055 (withRegs [(0, 0x77), (1, 0x88)] { State.reset with i := 0x400 })) (fun t => (t.byteAt 0x400, t.byteAt 0x401, t.i)) = some (some 0x77, some 0x00, 0x400) := by decide +kernel
/-- T93. -/
theorem test_ldMemVx_faults :
    after (run 0xFF55 (withRegs [(0, 0x10), (0xE, 0x1E), (0xF, 0x1F)] { State.reset with i := 0xFF1 })) (fun t => (t.byteAt 0xFF1, t.byteAt 0xFFF, halt t)) = some (some 0x10, some 0x1E, (true, 2, 0xFF55, 0x200)) := by decide +kernel
/-- T94. -/
theorem test_ldVxMem :
    after (run 0xF265 (withRegs [(3, 0x44)] (withBytes 0x400 [9, 8, 7, 6] { State.reset with i := 0x400 }))) (fun t => ([t.reg 0, t.reg 1, t.reg 2, t.reg 3], t.i)) = some ([9, 8, 7, 0x44], 0x400) := by decide +kernel
/-- T95. -/
theorem test_ldVxMem_faults :
    after (run 0xF265 (withRegs [(0, 1), (1, 2), (2, 3), (3, 4)] (withBytes 0xFFE [0xAA, 0xBB] { State.reset with i := 0xFFE }))) (fun t => ([t.reg 0, t.reg 1, t.reg 2], t.halted, t.errCause)) = some ([0xAA, 0xBB, 3], true, 2) := by decide +kernel
/-- T100 under clip, T102 under wrap. -/
theorem test_drw_edges :
    after (run 0xD011 (withRegs [(0, 60)] (withBytes 0x300 [0xFF] { State.reset with i := 0x300 }))) (fun t => (cols t 0 59 5, cols t 0 0 4, t.reg 0xF, t.dirty)) = some ([false, true, true, true, true], [false, false, false, false], 0, true) ∧
    after (run 0xD012 (withRegs [(1, 31)] (withBytes 0x300 [0x80, 0x80] { State.reset with i := 0x300, params := { defaultParams with spriteEdge := .wrap } }))) (fun t => (pixelAt t.fb 31 0, pixelAt t.fb 0 0, t.reg 0xF)) = some (true, true, 0) := by decide +kernel
/-- T106, T108. -/
theorem test_drw_collision_and_fault :
    after (run 0xD011 (withPixels [(0, 0), (0, 1), (0, 2), (0, 3)] (withBytes 0x300 [0x3C] { State.reset with i := 0x300 }))) (fun t => (cols t 0 0 7, t.reg 0xF)) = some ([true, true, false, false, true, true, false], 1) ∧
    after (run 0xD012 (withBytes 0xFFF [0xC0] { State.reset with i := 0xFFF })) (fun t => (cols t 0 0 3, t.dirty, halt t)) = some ([true, true, false], false, (true, 2, 0xD012, 0x200)) := by decide +kernel
/-- T122. -/
theorem test_skp :
    after (run 0xE59E (withRegs [(5, 0x0F)] { pcAt 0x240 with keys := 0x8000 })) (fun t => t.pc) = some 0x244 := by decide +kernel
/-- T123. -/
theorem test_skp_faults :
    after (run 0xE59E (withRegs [(5, 0x10)] { pcAt 0x240 with keys := 0xFFFF })) (fun t => (halt t, t.pc)) = some ((true, 5, 0xE59E, 0x240), 0x242) := by decide +kernel
/-- T121. -/
theorem test_sknp :
    after (run 0xE5A1 (withRegs [(5, 7)] (pcAt 0x240))) (fun t => t.pc) = some 0x244 := by decide +kernel
/-- T121. -/
theorem test_sknp_pressed :
    after (run 0xE5A1 (withRegs [(5, 7)] { pcAt 0x240 with keys := 0x0080 })) (fun t => t.pc) = some 0x242 := by decide +kernel
/-- T127. -/
theorem test_ldVxDt :
    after (run 0xF307 { State.reset with dt := 0x2A }) (fun t => (t.reg 3, t.dt)) = some (0x2A, 0x2A) := by decide +kernel
/-- T125. -/
theorem test_ldVxK :
    after (run 0xF10A { pcAt 0x204 with keys := 0x1008 }) (fun t => (t.reg 1, t.pc)) = some (3, 0x206) := by decide +kernel
/-- X7. -/
theorem test_ldVxK_waits :
    after (run 0xF10A (withRegs [(1, 0x55)] (pcAt 0x204))) (fun t => (t.reg 1, t.pc)) = some (0x55, 0x204) := by decide +kernel
/-- T128. -/
theorem test_ldDtVx :
    after (run 0xF315 (withRegs [(3, 0x3C)] State.reset)) (fun t => t.dt) = some 60 := by decide +kernel
/-- T129. -/
theorem test_ldStVx :
    after (run 0xF318 (withRegs [(3, 5)] State.reset)) (fun t => (t.st, t.outputs.sound)) = some (5, true) := by decide +kernel
/-- T130, the last two columns. -/
theorem test_decrementTimers :
    ((decrementTimers { State.reset with dt := 255, st := 1 }).dt, (decrementTimers { State.reset with dt := 0, st := 200 }).st) =
      (254, 199) := by decide +kernel

/-- T141's second poll: F315 loads DT = 5, the timer clock then takes it to 4, all three clocks restamp. -/
def secondPoll : State :=
  withRegs [(3, 5)] (withBytes 0x202 [0xF3, 0x15]
    { pcAt 0x202 with last := ⟨15000, 0, 0⟩, host := [.poll ⟨16666, 0, 0⟩] })

/-- T141, poll at 16666. -/
theorem test_step_order :
    after (step secondPoll) (fun t => (t.dt, t.pc, t.last, t.host)) = some (4, 0x204, ⟨16666, 16666, 16666⟩, []) := by decide +kernel
/-- 46 R221: a microsecond before the period. -/
theorem test_step_no_clock :
    after (step { State.reset with host := [.poll ⟨999, 0, 0⟩] }) (fun t => (t.pc, t.last.cpu, t.halted)) = some (0x200, 0, false) := by decide +kernel
/-- 46 R227: reset at 0, polls at 400 then 300. -/
def goesBack : State := { State.reset with host := [.poll ⟨400, 0, 0⟩, .poll ⟨300, 0, 0⟩] }
theorem test_step_decreasing_time :
    (match step goesBack with
      | .next t => (match step t with | .refused r => some (t.hostTime, r) | _ => none)
      | _ => none) = some (400, .timeWentBack) := by decide +kernel
/-- 46 R227: a poll at the same time as the one before is in order. -/
theorem test_step_same_time :
    after (step { State.reset with hostTime := 400, host := [.poll ⟨400, 0, 0⟩] }) (fun t => (t.hostTime, t.pc)) =
      some (400, 0x200) := by decide +kernel
/-- T1, P5b. -/
theorem test_step_empty_rom :
    after (step { State.reset with host := [.poll ⟨1000, 0, 0⟩] }) (fun t => (halt t, t.pc)) = some ((true, 1, 0x0000, 0x200), 0x202) := by decide +kernel
/-- P5a, Reset with its image. -/
theorem test_step_reset :
    after (step { State.reset with halted := true, errCause := 1, host := [.reset defaultParams [0x00, 0xEE] 77] }) (fun t => (t.byteAt 0x201, t.byteAt 0x050, t.halted, t.last.cpu, t.pc)) = some (some 0xEE, some 0xF0, false, 77, 0x200) := by decide +kernel
/-- X4, as the first instruction after reset. -/
theorem test_step_withFetchWord :
    after (step (State.reset.withFetchWord 16 0x6A3F)) (fun t => (t.reg 0xA, t.pc, t.halted)) = some (0x3F, 0x202, false) := by decide +kernel

/-! ## Witnesses: for every statement with hypotheses, terms that meet them -/

theorem witness_EncodeOfDecodeIsTheWord : decodeWord 0x05E0 = .ok (.cls 5) := by decide
theorem witness_OpcodeMapDecidesTheRow : (⟨34, 0xF0FF, 0xF065⟩ : OpcodeRow) ∈ opcodeMap := by decide

/-- A running core with `LD VA, 0x3F` at PC and a poll at exactly one CPU period after the last firing. -/
def polled : State := withBytes 0x200 [0x6A, 0x3F] { State.reset with host := [.poll ⟨1000, 0, 0⟩] }

theorem polled_pending : pollPending ⟨1000, 0, 0⟩ [] polled := by unfold pollPending; decide +kernel

theorem polled_inv : polled.Inv := by
  refine ⟨by decide +kernel, by decide +kernel, by decide +kernel, by decide +kernel, by decide +kernel, ?_, by decide +kernel, by decide +kernel⟩
  intro k a hk
  exact absurd hk (Nat.not_lt_zero k)

theorem witness_StepRunsTheDecodedInstruction :
    pollPending ⟨1000, 0, 0⟩ [] polled ∧ due 1000 polled.last.cpu polled.params.cpuHz ∧
      polled.wordAt polled.pc.toNat = some 0x6A3F ∧ decodeWord 0x6A3F = .ok (.ldImm 0xA 0x3F) :=
  ⟨polled_pending, by decide +kernel, by decide +kernel, by decide⟩
theorem witness_FetchReadsTwoBytesBigEndian : 4095 < 4095 + 1 ∧ 4094 + 1 ≤ 4095 := by decide
theorem witness_FetchPastTheEndHalts : (pcAt 0xFFF).halted = false ∧ 4094 < (pcAt 0xFFF).pc.toNat := by decide +kernel
theorem witness_UndefinedWordHalts :
    (pcAt 0xFFE).halted = false ∧ (pcAt 0xFFE).wordAt (pcAt 0xFFE).pc.toNat = some 0x0000 ∧
      decodeWord 0x0000 = .error (.undefinedWord 0x0000) := by decide +kernel
/-- A halted core whose host resets it with the longest image that loads. -/
theorem witness_HaltedCoreLeavesOnlyByReset :
    ∃ s : State, s.halted = true ∧ s.host = [.reset defaultParams (List.replicate 3584 0x00) 5] ∧
      Params.wellFormed defaultParams = true ∧ (List.replicate 3584 (0x00 : Byte)).length ≤ 3584 :=
  ⟨{ State.reset with halted := true, errCause := 1, host := [.reset defaultParams (List.replicate 3584 0x00) 5] },
    rfl, rfl, by decide, Nat.le_of_eq List.length_replicate⟩

/-- The stack full. -/
def fullStack : State := { State.reset with sp := 16 }
/-- One entry free. -/
def oneFree : State := { State.reset with sp := 15 }

theorem witness_RetPopsTheReturnAddress :
    State.reset.sp = 0 ∧ 0 < fullStack.sp ∧ fullStack.stack[fullStack.sp - 1]? = some 0x0000 := by decide +kernel
theorem witness_CallPushesTheAdvancedPc :
    fullStack.sp = fullStack.params.stackDepth ∧ oneFree.sp ≠ oneFree.params.stackDepth ∧
      oneFree.sp < oneFree.stack.length := by decide +kernel
/-- The stack that a call into the last free entry leaves. -/
theorem witness_ReturnLandsAfterTheCall :
    oneFree.sp ≠ oneFree.params.stackDepth ∧ oneFree.sp < oneFree.stack.length ∧
      after (exec (.call 0xFFF) oneFree) (fun t => (t.sp, t.stack[15]?)) = some (16, some 0x0200) := by decide +kernel

/-- V1 = 0xFF, V2 = 0x01, V3 = 0x00, V4 = 0x10. -/
def someRegs : State := withRegs [(1, 0xFF), (2, 0x01), (4, 0x10)] State.reset

theorem witness_ImmediateSkips : someRegs.reg 1 = 0xFF ∧ someRegs.reg 1 ≠ 0xFE := by decide +kernel
theorem witness_RegisterSkips : someRegs.reg 1 = someRegs.reg 1 ∧ someRegs.reg 1 ≠ someRegs.reg 2 := by decide +kernel
/-- Exact sums 256 and 255. -/
theorem witness_AddSetsVxThenCarry :
    (1 : Nibble) ≠ 0xF ∧ 255 < (someRegs.reg 1).toNat + (someRegs.reg 2).toNat ∧
      (someRegs.reg 1).toNat + (someRegs.reg 3).toNat ≤ 255 := by decide +kernel
/-- Equal operands, and a minuend one below. -/
theorem witness_SubtractSetsVxThenNotBorrow :
    (1 : Nibble) ≠ 0xF ∧ (someRegs.reg 1).toNat ≤ (someRegs.reg 1).toNat ∧
      (someRegs.reg 3).toNat < (someRegs.reg 2).toNat := by decide +kernel
theorem witness_ReverseSubtractSetsVxThenNotBorrow :
    (1 : Nibble) ≠ 0xF ∧ (someRegs.reg 1).toNat ≤ (someRegs.reg 1).toNat ∧
      (someRegs.reg 3).toNat < (someRegs.reg 2).toNat := by decide +kernel
theorem witness_ShiftRightSetsFlagThenHalves : (1 : Nibble) ≠ 0xF ∧ (0xF : Nibble) = 0xF := by decide
theorem witness_ShiftLeftSetsFlagThenDoubles :
    (1 : Nibble) ≠ 0xF ∧ 128 ≤ ((withRegs [(0xF, 0x80)] State.reset).reg 0xF).toNat ∧
      ((withRegs [(0xF, 0x7F)] State.reset).reg 0xF).toNat < 128 := by decide +kernel

/-- The highest FONT_BASE that fits. -/
theorem witness_FontIndexIsBasePlusFiveVx : Params.fontFits { defaultParams with fontBase := 4016 } = true := by decide

/-- The reset state with I set. -/
def withI (a : Word) : State := { State.reset with i := a }

theorem witness_DecimalDigitsAreStored :
    Memory.wf (withI 0xFFD).params (withI 0xFFD).mem = true ∧ (withI 0xFFD).i.toNat + 2 ≤ 4095 ∧
      4095 < (withI 0xFFF).i.toNat + 2 ∧ (withI 0xFFF).i.toNat ≤ 4095 ∧
      4095 < (withI 0xFFE).i.toNat + 2 ∧ (withI 0xFFE).i.toNat + 1 ≤ 4095 := by decide +kernel
theorem witness_RegistersAreStored :
    Memory.wf (withI 0xFF0).params (withI 0xFF0).mem = true ∧ (withI 0xFF0).i.toNat + (0xF : Nibble).toNat ≤ 4095 ∧
      4095 < (withI 0xFF1).i.toNat + (0xF : Nibble).toNat ∧ (0xE : Nibble).toNat ≤ (0xF : Nibble).toNat ∧
      (withI 0xFF1).i.toNat + (0xE : Nibble).toNat ≤ 4095 := by decide +kernel
theorem witness_RegistersAreLoaded :
    (withI 0xFF0).i.toNat + (0xF : Nibble).toNat ≤ 4095 ∧ (0xE : Nibble).toNat < (0xF : Nibble).toNat ∧
      4095 < (withI 0xFF1).i.toNat + (0xF : Nibble).toNat ∧ (withI 0xFF1).i.toNat + (0xE : Nibble).toNat ≤ 4095 := by
  decide +kernel
theorem witness_StoreThenLoadRestoresTheRegisters :
    Memory.wf (withI 0xFF0).params (withI 0xFF0).mem = true ∧ (withI 0xFF0).i.toNat + (0xF : Nibble).toNat ≤ 4095 ∧
      (after (exec (.ldMemVx 0xF) (withI 0xFF0)) fun t => t.i) = some 0xFF0 := by decide +kernel
theorem witness_StoredBytesAreTheNextFetch :
    Memory.wf (withI 0xFFE).params (withI 0xFFE).mem = true ∧ 1 ≤ (1 : Nibble).toNat ∧
      (withI 0xFFE).i.toNat + (1 : Nibble).toNat ≤ 4095 := by decide +kernel

/-- I = 0xFFF holds 0x80, and pixel (0, 0) is lit. -/
def lit : State := withPixels [(0, 0)] (withBytes 0xFFF [0x80] (withI 0xFFF))

theorem witness_DrawXorsTheSprite :
    ((0 : Nibble) = 0 ∨ (withI 0xFFFF).i.toNat + (0 : Nibble).toNat ≤ 4096) ∧ lit.i.toNat + (1 : Nibble).toNat ≤ 4096 := by
  decide +kernel
theorem lit_collides (n : Nat) (h : 0 < n) : spriteCollides lit 0 0 n := by
  refine ⟨0, 0, by decide, by decide, ?_, by decide +kernel⟩
  have hb : lit.byteAt lit.i.toNat = some 0x80 := by decide +kernel
  have he : lit.params.spriteEdge = .clip := rfl
  simp [spriteBit, spriteOffset, he, h, hb]
theorem dark_does_not_collide (a : Word) (sx sy n : Nat) : ¬ spriteCollides (withI a) sx sy n := by
  rintro ⟨r, c, _, _, _, hp⟩
  have : pixelAt (withI a).fb r c = false := pixelAt_blankScreen r c
  rw [this] at hp
  exact absurd hp (by decide)
theorem witness_DrawReportsCollision :
    lit.i.toNat + (1 : Nibble).toNat ≤ 4096 ∧ spriteCollides lit 0 0 (1 : Nibble).toNat ∧
      (withI 0xFFF).i.toNat + (1 : Nibble).toNat ≤ 4096 ∧ ¬ spriteCollides (withI 0xFFF) 0 0 (1 : Nibble).toNat :=
  ⟨by decide +kernel, lit_collides _ (by decide), by decide +kernel, dark_does_not_collide _ _ _ _⟩
theorem witness_DrawFaultKeepsTheRowsDrawn :
    (2 : Nibble) ≠ 0 ∧ 4096 < lit.i.toNat + (2 : Nibble).toNat ∧ spriteCollides lit 0 0 (4096 - lit.i.toNat) ∧
      4096 < (withI 0xFFF).i.toNat + (2 : Nibble).toNat ∧ ¬ spriteCollides (withI 0xFFF) 0 0 (4096 - (withI 0xFFF).i.toNat) :=
  ⟨by decide, by decide +kernel, lit_collides _ (by decide +kernel), by decide +kernel, dark_does_not_collide _ _ _ _⟩
/-- The state drawn once meets the second draw's premises but for VF, which x and y do not name. -/
theorem witness_DrawingTwiceRestoresTheScreen :
    lit.i.toNat + (1 : Nibble).toNat ≤ 4096 ∧
      (after (exec (.drw 0 1 1) lit) fun t =>
        (decide (t.i = lit.i), decide (t.mem = lit.mem), decide (t.params = lit.params), t.reg 0, t.reg 1)) =
        some (true, true, true, lit.reg 0, lit.reg 1) := by decide +kernel

theorem witness_KeySkips :
    15 < (someRegs.reg 4).toNat ∧ ((withRegs [(1, 15)] State.reset).reg 1).toNat ≤ 15 ∧
      (0x8000 : BitVec 16).getLsbD 15 = true ∧ (0x7FFF : BitVec 16).getLsbD 15 = false := by decide +kernel
theorem witness_WaitForKeyTakesTheLeastKey :
    (∀ k, k < 16 → State.reset.keys.getLsbD k = false) ∧ (0x8000 : BitVec 16).getLsbD 15 = true ∧
      (∀ j, j < 15 → (0x8000 : BitVec 16).getLsbD j = false) ∧ (0xFFFF : BitVec 16).getLsbD 0 = true := by
  decide +kernel

/-- No clock due, one microsecond early. -/
def early : State := { State.reset with host := [.poll ⟨999, 0, 0⟩] }
/-- All three clocks due, the timers at exactly their period, with `LD DT, V3` at PC and V3 = 5. -/
def allDue : State := withRegs [(3, 5)] (withBytes 0x200 [0xF3, 0x15] { State.reset with host := [.poll ⟨16666, 0, 0⟩] })

theorem early_pending : pollPending ⟨999, 0, 0⟩ [] early := by unfold pollPending; decide +kernel
theorem allDue_pending : pollPending ⟨16666, 0, 0⟩ [] allDue := by unfold pollPending; decide +kernel

theorem witness_PollRestampsTheDueClocks :
    (pollPending ⟨16666, 0, 0⟩ [] allDue ∧ due 16666 allDue.last.cpu allDue.params.cpuHz ∧ due 16666 allDue.last.timer 60 ∧
      due 16666 allDue.last.display 60 ∧ (after (step allDue) fun t => t.pc) = some 0x202) ∧
    (pollPending ⟨999, 0, 0⟩ [] early ∧ ¬ due 999 early.last.cpu early.params.cpuHz ∧ ¬ due 999 early.last.timer 60 ∧
      ¬ due 999 early.last.display 60 ∧ (after (step early) fun t => t.pc) = some 0x200) :=
  ⟨⟨allDue_pending, by decide +kernel, by decide +kernel, by decide +kernel, by decide +kernel⟩,
    early_pending, by decide +kernel, by decide +kernel, by decide +kernel, by decide +kernel⟩
theorem witness_EveryPollCompletes : polled.Inv ∧ pollPending ⟨1000, 0, 0⟩ [] polled := ⟨polled_inv, polled_pending⟩
/-- A Tick that halts (an undefined word at PC) and one that does not. -/
def halting : State := { State.reset with host := [.poll ⟨16666, 0, 0⟩] }
theorem witness_IterationRunsInOrder :
    (pollPending ⟨16666, 0, 0⟩ [] allDue ∧ due 16666 allDue.last.cpu allDue.params.cpuHz ∧
      (after (tick (sample ⟨16666, 0, 0⟩ { allDue with host := [] })) fun a => a.halted) = some false) ∧
    (pollPending ⟨16666, 0, 0⟩ [] halting ∧ due 16666 halting.last.cpu halting.params.cpuHz ∧
      (after (tick (sample ⟨16666, 0, 0⟩ { halting with host := [] })) fun a => a.halted) = some true) := by
  refine ⟨⟨allDue_pending, by decide +kernel, by decide +kernel⟩, ?_, by decide +kernel, by decide +kernel⟩
  unfold pollPending
  decide +kernel
theorem witness_DelayLoadedThenDecrementedInOneIteration :
    pollPending ⟨16666, 0, 0⟩ [] allDue ∧ due 16666 allDue.last.cpu allDue.params.cpuHz ∧ due 16666 allDue.last.timer 60 ∧
      allDue.wordAt allDue.pc.toNat = some (encode (.ldDtVx 3)) ∧ 0 < (allDue.reg 3).toNat :=
  ⟨allDue_pending, by decide +kernel, by decide +kernel, by decide +kernel, by decide +kernel⟩
theorem witness_TimerFiringsCountDownToZero : State.reset.halted = false := by decide +kernel
theorem witness_RefreshPresentsThenClearsDirty : State.reset.halted = false := by decide +kernel
theorem witness_SoundChangesOnlyWithFx18 :
    (after (exec (.ldStVx 1) someRegs) fun t => decide (t.outputs.sound ≠ someRegs.outputs.sound)) = some true := by
  decide +kernel
/-- The review's run: reset at 0, a poll at 400, then one at 300 (here, by one microsecond, at 399). -/
theorem witness_PollWithADecreasingTimeIsRefused :
    ∃ s : State, s.host = [.poll ⟨399, 0, 0⟩] ∧ s.halted = false ∧ s.last = ⟨0, 0, 0⟩ ∧
      ((399 : Micros).toNat < s.hostTime.toNat ∨ (399 : Micros).toNat < s.last.cpu.toNat ∨
        (399 : Micros).toNat < s.last.timer.toNat ∨ (399 : Micros).toNat < s.last.display.toNat) :=
  ⟨{ State.reset with hostTime := 400, host := [.poll ⟨399, 0, 0⟩] }, by decide +kernel, by decide +kernel, by decide +kernel,
    by decide +kernel⟩
/-- The same for the three last firings alone, each one microsecond ahead. -/
theorem witness_PollBeforeALastFiring :
    (4 : Micros).toNat < (⟨5, 0, 0⟩ : Clocks).cpu.toNat ∧ (4 : Micros).toNat < (⟨0, 5, 0⟩ : Clocks).timer.toNat ∧
      (4 : Micros).toNat < (⟨0, 0, 5⟩ : Clocks).display.toNat := by decide
/-- The longest image, and an address on each side of the font and of the image. -/
theorem witness_ResetGivesTheResetState :
    (∃ s : State, s.host = [.reset defaultParams (List.replicate 3584 0x12) 9]) ∧ Params.wellFormed defaultParams = true ∧
      (List.replicate 3584 (0x12 : Byte)).length ≤ 3584 ∧ 0x9F < 0x200 ∧ 0x9F = defaultParams.fontBase + 79 ∧
      0x4F < defaultParams.fontBase ∧ defaultParams.fontBase + 80 ≤ 0xA0 :=
  ⟨⟨{ State.reset with host := [.reset defaultParams (List.replicate 3584 0x12) 9] }, rfl⟩, by decide, Nat.le_of_eq List.length_replicate, by decide,
    by decide, by decide, by decide⟩
theorem witness_ResetRefusesBadInputs :
    (∃ s : State, s.host = [.reset { defaultParams with cpuHz := 0 } [] 9]) ∧ ([] : List Byte).length ≤ 3584 ∧
      (∃ s : State, s.host = [.reset defaultParams (List.replicate 3585 0x00) 9]) ∧
      3584 < (List.replicate 3585 (0x00 : Byte)).length ∧
      (∃ s : State, s.host = [.reset { defaultParams with fontBase := 4017 } [] 9]) ∧ 1 ≤ defaultParams.cpuHz ∧ 4096 < 4017 + 80 :=
  ⟨⟨{ State.reset with host := [.reset { defaultParams with cpuHz := 0 } [] 9] }, rfl⟩, by decide,
    ⟨{ State.reset with host := [.reset defaultParams (List.replicate 3585 0x00) 9] }, rfl⟩, by rw [List.length_replicate]; decide,
    ⟨{ State.reset with host := [.reset { defaultParams with fontBase := 4017 } [] 9] }, rfl⟩, by decide, by decide⟩
theorem witness_EveryStepKeepsTheInvariant :
    polled.Inv ∧ (after (step polled) fun t => t.reg 0xA) = some 0x3F := ⟨polled_inv, by decide +kernel⟩
theorem witness_InputsAreReadOnlyWhereNamed :
    (readsKeys (.rnd 1 0xFF) = false ∨ (0x0001 : BitVec 16) = State.reset.keys) ∧
      (readsRand (.skp 1) = false ∨ (0x01 : Byte) = State.reset.rand) ∧ readsRand (.ldVxDt 1) = false := by decide +kernel
theorem witness_RegistersAreWrittenOnlyWhereNamed :
    (after (exec (.ldVxMem 1) State.reset) fun t => t.i) = some 0x0000 ∧ mayWriteReg (.ldVxMem 1) 2 = false := by
  decide +kernel
theorem witness_PiecesAreWrittenOnlyWhereNamed :
    (after (exec (.ldStVx 1) someRegs) fun t => t.st) = some 0xFF ∧ mayWritePiece (.ldStVx 1) .delayTimer = false ∧
      mayWriteMemory (.ldStVx 1) = false := by decide +kernel
theorem witness_OnlyTheListedInstructionsRaise :
    mayRaise (.drw 1 2 0) = false ∧ causeOf (.drw 1 2 1) = some .memoryFault ∧
      (after (exec (.call 0x300) fullStack) fun t => (causeOf (.call 0x300), halt t)) =
        some (some .stackOverflow, true, 4, 0x2300, 0x01FE) ∧ fullStack.stack.length = fullStack.params.stackDepth ∧
      fullStack.sp ≤ fullStack.params.stackDepth := by decide +kernel
/-- T21's state. -/
theorem witness_JumpToSelfIsTheEndOfARun : State.atEnd (storeAtPc 0x1200 State.reset) :=
  ⟨by decide +kernel, 0x200, by decide +kernel, by decide +kernel⟩

end Sys2Proof.Tests
end

section
/-! Proofs of the statements about the state: the invariant of 10_state R36 holds at reset and every step keeps it, and
the table of R21 and R22 names every register an instruction writes. What an instruction may do to a property of the
state is said once for its pieces (`Part.Holds`) and for its outcome (`nextHolds`). -/

namespace Sys2Proof.Machine

/-! ## What holds of wherever an operation comes to -/

/-- `P` holds of the state a piece of an instruction reached, whether it went on or raised. -/
def Part.Holds (P : State → Prop) : Part → Prop
  | .went t => P t
  | .raised _ t => P t
  | .broken _ => True

/-- `P` holds of the next state, if the outcome is one. -/
def nextHolds (P : State → Prop) (o : Host.Outcome State Fault Refusal) : Prop := ∀ t, o = .next t → P t

theorem Part.Holds.mono {P Q : State → Prop} {p : Part} (h : p.Holds P) (hPQ : ∀ t, P t → Q t) : p.Holds Q := by
  cases p with
  | went t => exact hPQ t h
  | raised c t => exact hPQ t h
  | broken r => trivial

theorem Part.Holds.andThen {P : State → Prop} {p : Part} {f : State → Part} (h : p.Holds P)
    (hf : ∀ t, P t → (f t).Holds P) : (p.andThen f).Holds P := by
  cases p with
  | went t => exact hf t h
  | raised c t => exact h
  | broken r => trivial

theorem nextHolds_next {P : State → Prop} {t : State} (h : P t) : nextHolds P (.next t) := by
  rintro _ ⟨⟩
  exact h

theorem nextHolds_mapNext {P : State → Prop} {g : State → State} {o : Host.Outcome State Fault Refusal}
    (h : nextHolds P o) (hg : ∀ t, P t → P (g t)) : nextHolds P (mapNext g o) := by
  intro t ht
  obtain ⟨u, hu, rfl⟩ := mapNext_eq_next ht
  exact hg u (h u hu)

/-- A property that raising keeps passes from an instruction's pieces to its outcome. -/
theorem Part.Holds.finish {P : State → Prop} {p : Part} (h : p.Holds P)
    (hraise : ∀ c w a t, P t → P (raise c w a t)) (i : Instr) (a : Word) : nextHolds P (finish i a p) := by
  cases p with
  | went t => exact nextHolds_next h
  | raised c t => exact nextHolds_next (hraise c _ a t h)
  | broken r => rintro _ ⟨⟩

/-! ## Where the shared operations come to -/

/-- Drawing changes the framebuffer and VF alone, however far it came (44 R181). -/
theorem drawRows_onlyDraws (vx vy : Byte) (n : Nibble) (s : State) :
    (drawRows (startColumn vx) (startRow vy) n.toNat 0 s).Holds (onlyDraws s) := by
  have hn := n.isLt
  obtain ⟨t, hX, he⟩ := drawRows_spec (sx := startColumn vx) (sy := startRow vy) (Nat.mod_lt _ (by decide))
    (Nat.mod_lt _ (by decide)) n.toNat 0 (by omega) s
  rw [he]
  split <;> exact hX.draws

/-- Loading `V0` to `Vx` changes the V registers alone, and none above `Vx` (43 R165). -/
theorem loadRegs_onlyRegs (x : Nibble) (a : Nat) (s : State) :
    (loadRegs (x.toNat + 1) 0 a s).Holds
      fun t => onlyRegs s t ∧ ∀ r : Nibble, x.toNat < r.toNat → t.reg r = s.reg r := by
  have hx := x.isLt
  obtain ⟨t, hregs, hread, he⟩ := loadRegs_spec (x.toNat + 1) 0 a s (by omega)
  have habove : ∀ r : Nibble, x.toNat < r.toNat → t.reg r = s.reg r := fun r hr => by
    rw [hread r, if_neg (by omega)]
  rw [he]
  split <;> exact ⟨hregs, habove⟩

/-- A store comes to bytes in memory, all at addresses that exist (20_memory R57). -/
theorem storeBytes_setBytes (a : Nat) (bs : List Byte) (s : State) :
    (storeBytes a bs s).Holds fun t => ∃ cs, (a + cs.length ≤ 4096 ∨ cs = []) ∧ t = s.setBytes a cs := by
  rw [storeBytes_eq]
  split
  · next hfit => exact ⟨bs, hfit, rfl⟩
  · refine ⟨bs.take (4096 - a), ?_, rfl⟩
    by_cases ha : a ≤ 4096
    · have := List.length_take_le (4096 - a) bs
      omega
    · have h0 : 4096 - a = 0 := by omega
      simp [h0]

/-! ## Addresses for PC -/

/-- A PC within memory gains 2 without wrapping (40 R102, 41 R128). -/
theorem toNat_add_two {a : Word} (ha : a.toNat ≤ 4096) : (a + 2).toNat = a.toNat + 2 := by bv_omega

theorem toNat_sub_two {a : Word} (ha : 2 ≤ a.toNat) : (a - 2).toNat = a.toNat - 2 := by bv_omega

theorem absoluteTarget_le (nnn : Addr) : (absoluteTarget nnn).toNat ≤ 0x10FE := by
  have := nnn.isLt
  rw [toNat_absoluteTarget]
  omega

/-- 0x10FE is the largest target, 0xFFF + 0xFF (41 R127). -/
theorem offsetTarget_le (nnn : Addr) (v : Byte) : (offsetTarget nnn v).toNat ≤ 0x10FE := by
  have := nnn.isLt
  have := v.isLt
  rw [toNat_offsetTarget]
  omega

/-! ## The invariant under each update -/

theorem State.Inv.setReg {s : State} (h : s.Inv) (x : Nibble) (b : Byte) : (s.setReg x b).Inv := { h with }
theorem State.Inv.setI {s : State} (h : s.Inv) (a : Word) : (s.setI a).Inv := { h with }
theorem State.Inv.setHost {s : State} (h : s.Inv) (todo : List HostEvent) : State.Inv { s with host := todo } :=
  { h with }
theorem State.Inv.setPc {s : State} (h : s.Inv) {a : Word} (ha : a.toNat ≤ 0x10FE) : (s.setPc a).Inv :=
  { h with pcInRange := ha }

theorem Cause.code_ne_zero (c : Cause) : c.code ≠ 0 := by cases c <;> decide

/-- Raising writes a cause other than 0 and halts (60 R259), so the record still says whether the core is halted. -/
theorem State.Inv.raise {s : State} (h : s.Inv) (c : Cause) (w pc0 : Word) : (raise c w pc0 s).Inv :=
  { h with causeWhenHalted := iff_of_false c.code_ne_zero Bool.true_eq_false.mp }

theorem State.Inv.setBytes {s : State} (h : s.Inv) {a : Nat} {bs : List Byte}
    (hfit : a + bs.length ≤ 4096 ∨ bs = []) : (s.setBytes a bs).Inv :=
  { h with memoryCanonical := wf_setBytes h.memoryCanonical hfit }

theorem State.Inv.of_onlyRegs {s t : State} (h : s.Inv) (ht : onlyRegs s t) : t.Inv := by
  rw [ht]
  exact { h with }

theorem State.Inv.of_onlyDraws {s t : State} (h : s.Inv) (ht : onlyDraws s t) : t.Inv := by
  rw [ht.1]
  exact { h with }

theorem State.Inv.skipIf {s : State} (h : s.Inv) (hpc : s.pc.toNat ≤ 4096) (b : Bool) : (skipIf b s).Inv := by
  cases b with
  | false => exact h
  | true => exact h.setPc (by rw [toNat_add_two hpc]; omega)

/-- Pushing the advanced PC adds one live entry, which is at most 4096 (10_state R36 (a), (d)). -/
theorem pushReturn_keeps_inv {s : State} (h : s.Inv) {a : Word} (ha : a.toNat ≤ 4096) :
    (pushReturn a s).Holds State.Inv := by
  obtain ⟨-, he⟩ | ⟨hne, hlt, he⟩ | ⟨-, -, he⟩ := pushReturn_cases a s <;> rw [he]
  · exact h
  · have hle := h.spInRange
    refine { h with stackSize := ?_, spInRange := ?_, liveEntries := ?_ }
    · simpa using h.stackSize
    · show s.sp + 1 ≤ s.params.stackDepth
      omega
    · intro k b hk hb
      obtain hk | rfl : k < s.sp ∨ k = s.sp := by
        have : k < s.sp + 1 := hk
        omega
      · exact h.liveEntries k b hk (by simpa [List.getElem?_set_ne (Nat.ne_of_gt hk)] using hb)
      · obtain rfl : a = b := by simpa [hlt] using hb
        exact ha
  · trivial

/-- Popping takes a live entry as PC, which the invariant bounds (10_state R36 (d)). -/
theorem popIntoPc_keeps_inv {s : State} (h : s.Inv) : (popIntoPc s).Holds State.Inv := by
  obtain ⟨-, he⟩ | ⟨a, hne, ha, he⟩ | ⟨-, -, he⟩ := popIntoPc_cases s <;> rw [he]
  · exact h
  · have hle := h.spInRange
    have hpc := h.liveEntries (s.sp - 1) a (by omega) ha
    refine { h with spInRange := ?_, pcInRange := ?_, liveEntries := ?_ }
    · show s.sp - 1 ≤ s.params.stackDepth
      omega
    · show a.toNat ≤ 0x10FE
      omega
    · intro k b hk hb
      exact h.liveEntries k b (by have : k < s.sp - 1 := hk; omega) hb
  · trivial

/-! ## The invariant under each instruction -/

theorem storeBytes_keeps_inv {s : State} (h : s.Inv) (a : Nat) (bs : List Byte) :
    (storeBytes a bs s).Holds State.Inv :=
  (storeBytes_setBytes a bs s).mono fun _ ⟨_, hfit, ht⟩ => ht ▸ h.setBytes hfit

theorem finish_keeps_inv {p : Part} (h : p.Holds State.Inv) (i : Instr) (a : Word) :
    nextHolds State.Inv (finish i a p) :=
  h.finish (fun c w pc0 _ ht => ht.raise c w pc0) i a

theorem keySkip_keeps_inv {s : State} (h : s.Inv) (hpc : s.pc.toNat ≤ 4096) (i : Instr) (x : Nibble) (want : Bool) :
    nextHolds State.Inv (keySkip i x want s) := by
  refine finish_keeps_inv ?_ i _
  split
  · exact h
  · exact h.skipIf hpc _

theorem execCall_keeps_inv {s : State} (h : s.Inv) (hpc : s.pc.toNat ≤ 4096) (nnn : Addr) :
    nextHolds State.Inv (execCall nnn s) := by
  refine finish_keeps_inv ((pushReturn_keeps_inv h hpc).andThen fun t ht => ?_) _ _
  exact ht.setPc (absoluteTarget_le nnn)

theorem execDrw_keeps_inv {s : State} (h : s.Inv) (x y n : Nibble) : nextHolds State.Inv (execDrw x y n s) := by
  have hrows := (drawRows_onlyDraws (s.reg x) (s.reg y) n (s.setReg flagReg 0x00)).mono fun _ ht =>
    (h.setReg flagReg 0x00).of_onlyDraws ht
  refine finish_keeps_inv (hrows.andThen fun t ht => ?_) _ _
  exact { ht with }

theorem execLdVxK_keeps_inv {s : State} (h : s.Inv) (hadv : 2 ≤ s.pc.toNat) (x : Nibble) :
    nextHolds State.Inv (execLdVxK x s) := by
  unfold execLdVxK
  split
  · refine nextHolds_next (h.setPc ?_)
    have := h.pcInRange
    rw [toNat_sub_two hadv]
    omega
  · exact nextHolds_next (h.setReg x _)

/-- Every instruction keeps the invariant, from any state a fetch leaves: PC is advanced and came from a place where a
word can be fetched (40 R101, R102). -/
theorem exec_keeps_inv {s : State} (h : s.Inv) (hadv : 2 ≤ s.pc.toNat) (hpc : s.pc.toNat ≤ 4096) (i : Instr) :
    nextHolds State.Inv (exec i s) :=
  match i with
  | .cls _ => nextHolds_next { h with }
  | .ret x => finish_keeps_inv (popIntoPc_keeps_inv h) (.ret x) _
  | .jp nnn => nextHolds_next (h.setPc (absoluteTarget_le nnn))
  | .call nnn => execCall_keeps_inv h hpc nnn
  | .seImm .. | .sneImm .. | .seReg .. | .sneReg .. => nextHolds_next (h.skipIf hpc _)
  | .ldImm x _ | .addImm x _ | .rnd x _ => nextHolds_next (h.setReg x _)
  | .ldReg x _ | .orReg x _ | .andReg x _ | .xorReg x _ => nextHolds_next (h.setReg x _)
  | .addReg x _ | .subReg x _ | .subnReg x _ => nextHolds_next ((h.setReg x _).setReg flagReg _)
  | .shr x _ | .shl x _ => nextHolds_next ((h.setReg flagReg _).setReg x _)
  | .ldI _ | .addI _ | .ldF _ => nextHolds_next (h.setI _)
  | .jpV0 nnn => nextHolds_next (h.setPc (offsetTarget_le nnn _))
  | .drw x y n => execDrw_keeps_inv h x y n
  | .skp x => keySkip_keeps_inv h hpc (.skp x) x true
  | .sknp x => keySkip_keeps_inv h hpc (.sknp x) x false
  | .ldVxDt x => nextHolds_next (h.setReg x _)
  | .ldVxK x => execLdVxK_keeps_inv h hadv x
  | .ldDtVx _ | .ldStVx _ => nextHolds_next { h with }
  | .ldB x => finish_keeps_inv (storeBytes_keeps_inv h _ _) (.ldB x) _
  | .ldMemVx x => finish_keeps_inv (storeBytes_keeps_inv h _ _) (.ldMemVx x) _
  | .ldVxMem x => finish_keeps_inv ((loadRegs_onlyRegs x _ s).mono fun _ ht => h.of_onlyRegs ht.1) (.ldVxMem x) _

/-! ## The invariant under ticks, polls, resets and steps -/

theorem tick_keeps_inv {s : State} (h : s.Inv) : nextHolds State.Inv (tick s) := by
  obtain ⟨-, he⟩ | ⟨-, -, he⟩ | ⟨w, r, -, hpc, -, -, he⟩ | ⟨w, i, -, hpc, -, -, he⟩ := tick_cases s <;> rw [he]
  · exact nextHolds_next h
  · exact nextHolds_next (h.raise _ _ _)
  all_goals
    have hadv : (s.pc + 2).toNat = s.pc.toNat + 2 := toNat_add_two (by omega)
    have hset : (s.setPc (s.pc + 2)).Inv := h.setPc (by omega)
  · exact nextHolds_next (hset.raise _ _ _)
  · exact exec_keeps_inv hset (by rw [pc_setPc]; omega) (by rw [pc_setPc]; omega) i

theorem State.Inv.decrementTimers {s : State} (h : s.Inv) : (decrementTimers s).Inv := by
  unfold Machine.decrementTimers
  split
  · exact h
  · exact { h with }

theorem State.Inv.refresh {s : State} (h : s.Inv) : (refresh s).Inv := by
  unfold Machine.refresh
  split
  · exact h
  · exact { h with }

theorem State.Inv.afterTick {s : State} (h : s.Inv) (f : Fired) : (afterTick f s).Inv := by
  unfold Machine.afterTick
  split
  · exact h
  · split
    · split
      · exact h.decrementTimers.refresh
      · exact h.refresh
    · split
      · exact h.decrementTimers
      · exact h

/-- A sample keeps `now` as the host's time, and a poll in order has no clock fired after it (10_state R36 (e)). -/
theorem State.Inv.sample {s : State} (h : s.Inv) {p : PollInput} (ht : timeInOrder p.now s = true) :
    (sample p s).Inv := by
  obtain ⟨-, hcpu, htimer, hdisplay⟩ := timeInOrder_iff.mp ht
  have hlast {l : Micros} (hl : l.toNat ≤ p.now.toNat) (b : Bool) :
      (if b then p.now else l).toNat ≤ p.now.toNat := by
    cases b with
    | false => exact hl
    | true => exact Nat.le_refl _
  exact { h with firedInThePast := ⟨hlast hcpu _, hlast htimer _, hlast hdisplay _⟩ }

theorem pollStep_keeps_inv {s : State} (h : s.Inv) (p : PollInput) : nextHolds State.Inv (pollStep p s) := by
  obtain ⟨-, he⟩ | ⟨-, -, he⟩ | ⟨-, ht, -, he⟩ | ⟨-, ht, -, he⟩ := pollStep_cases p s <;> rw [he]
  · exact nextHolds_next h
  · rintro _ ⟨⟩
  · exact nextHolds_mapNext (tick_keeps_inv (h.sample ht)) fun t hi => hi.afterTick _
  · exact nextHolds_next ((h.sample ht).afterTick _)

/-- The state after a Reset meets the invariant, whatever the state was before (10_state R35, R36). -/
theorem resetWith_inv {p : Params} {rom : List Byte} (hrom : romFits rom = true) (hp : p.wellFormed = true)
    (now : Micros) (todo : List HostEvent) : (resetWith p rom now todo).Inv where
  memoryCanonical := wf_resetWith hrom now todo
  parametersLegal := hp
  stackSize := List.length_replicate
  spInRange := Nat.zero_le _
  pcInRange := (by decide : (0x0200 : Word).toNat ≤ 0x10FE)
  liveEntries k _ hk := absurd hk (Nat.not_lt_zero k)
  firedInThePast := ⟨Nat.le_refl _, Nat.le_refl _, Nat.le_refl _⟩
  causeWhenHalted := ⟨fun _ => rfl, fun _ => rfl⟩

theorem step_keeps_inv {s : State} (h : s.Inv) : nextHolds State.Inv (step s) := by
  obtain ⟨-, he⟩ | ⟨p, rest, -, he⟩ | ⟨p, rom, now, rest, -, he⟩ := step_cases s <;> rw [he]
  · exact nextHolds_next h
  · exact pollStep_keeps_inv (h.setHost rest) p
  · intro t ht
    obtain ⟨hrom, hp, rfl⟩ := resetCore_next ht
    exact resetWith_inv hrom hp now rest

/-- Settles O54: each update the operations make keeps the invariant, so every instruction does, so a Tick, a PollStep
and a step do. -/
theorem everyStepKeepsTheInvariant : Obligations.EveryStepKeepsTheInvariant :=
  fun _ t h ht => step_keeps_inv h t ht

/-- Settles O55: the reset state is the state after a Reset with the default parameters and the empty image. -/
theorem resetStateMeetsTheInvariant : Obligations.ResetStateMeetsTheInvariant :=
  resetWith_inv (p := defaultParams) (rom := []) (by decide) (by decide) 0 []

/-! ## The registers under each instruction (10_state R21, R22) -/

/-- `t` holds register `r` as `s` does. -/
def keepsReg (r : Nibble) (s t : State) : Prop := t.reg r = s.reg r

theorem reg_setReg_of_beq {x r : Nibble} (h : (r == x) = false) (s : State) (b : Byte) :
    (s.setReg x b).reg r = s.reg r :=
  reg_setReg_of_ne s b (Ne.symm (ne_of_beq_false h))

theorem finish_keeps_reg {s : State} {r : Nibble} {p : Part} (h : p.Holds (keepsReg r s)) (i : Instr)
    (a : Word) : nextHolds (keepsReg r s) (finish i a p) :=
  h.finish (fun _ _ _ _ ht => ht) i a

/-- The instructions with the flag in their row write `Vx` and VF, in either order. -/
theorem reg_setReg_setReg_of_beq_or {x y r : Nibble} (h : (r == x || r == y) = false) (s : State) (b c : Byte) :
    ((s.setReg x b).setReg y c).reg r = s.reg r := by
  obtain ⟨hx, hy⟩ := Bool.or_eq_false_iff.mp h
  rw [reg_setReg_of_beq hy, reg_setReg_of_beq hx]

theorem reg_skipIf (b : Bool) (s : State) (r : Nibble) : (skipIf b s).reg r = s.reg r := by cases b <;> rfl

theorem pushReturn_keeps_reg (a : Word) (s : State) (r : Nibble) :
    (pushReturn a s).Holds (keepsReg r s) := by
  obtain ⟨-, he⟩ | ⟨-, -, he⟩ | ⟨-, -, he⟩ := pushReturn_cases a s <;> rw [he]
  · exact rfl
  · exact rfl
  · trivial

theorem popIntoPc_keeps_reg (s : State) (r : Nibble) : (popIntoPc s).Holds (keepsReg r s) := by
  obtain ⟨-, he⟩ | ⟨a, -, -, he⟩ | ⟨-, -, he⟩ := popIntoPc_cases s <;> rw [he]
  · exact rfl
  · exact rfl
  · trivial

theorem storeBytes_keeps_reg (a : Nat) (bs : List Byte) (s : State) (r : Nibble) :
    (storeBytes a bs s).Holds (keepsReg r s) :=
  (storeBytes_setBytes a bs s).mono fun _ ⟨_, _, ht⟩ => by
    rw [ht]
    exact rfl

theorem keySkip_keeps_reg (i : Instr) (x : Nibble) (want : Bool) (s : State) (r : Nibble) :
    nextHolds (keepsReg r s) (keySkip i x want s) := by
  refine finish_keeps_reg ?_ i _
  split
  · exact rfl
  · exact reg_skipIf _ s r

theorem execCall_keeps_reg (nnn : Addr) (s : State) (r : Nibble) :
    nextHolds (keepsReg r s) (execCall nnn s) := by
  refine finish_keeps_reg ((pushReturn_keeps_reg _ s r).andThen fun t ht => ?_) _ _
  exact ht

theorem execDrw_keeps_reg (x y n : Nibble) (s : State) {r : Nibble} (h : r ≠ flagReg) :
    nextHolds (keepsReg r s) (execDrw x y n s) := by
  have hrows := (drawRows_onlyDraws (s.reg x) (s.reg y) n (s.setReg flagReg 0x00)).mono fun t ht =>
    (ht.2 r h).trans (reg_setReg_of_ne s 0x00 h.symm)
  refine finish_keeps_reg (hrows.andThen fun t ht => ?_) _ _
  exact ht

theorem execLdVxK_keeps_reg {x r : Nibble} (h : (r == x) = false) (s : State) :
    nextHolds (keepsReg r s) (execLdVxK x s) := by
  unfold execLdVxK
  split
  · exact nextHolds_next rfl
  · exact nextHolds_next (reg_setReg_of_beq h s _)

/-- An instruction keeps every register that its row of R21 and R22 does not name. -/
theorem exec_keeps_reg (i : Instr) (s : State) (r : Nibble) (h : mayWriteReg i r = false) :
    nextHolds (keepsReg r s) (exec i s) :=
  match i, h with
  | .cls _, _ | .jp _, _ | .ldI _, _ | .jpV0 _, _ | .ldDtVx _, _ | .ldStVx _, _ | .addI _, _ | .ldF _, _ =>
    nextHolds_next rfl
  | .ret x, _ => finish_keeps_reg (popIntoPc_keeps_reg s r) (.ret x) _
  | .call nnn, _ => execCall_keeps_reg nnn s r
  | .seImm .., _ | .sneImm .., _ | .seReg .., _ | .sneReg .., _ => nextHolds_next (reg_skipIf _ s r)
  | .ldImm .., h | .addImm .., h | .rnd .., h | .ldReg .., h | .orReg .., h | .andReg .., h | .xorReg .., h
  | .ldVxDt _, h => nextHolds_next (reg_setReg_of_beq h s _)
  | .addReg .., h | .subReg .., h | .subnReg .., h => nextHolds_next (reg_setReg_setReg_of_beq_or h s _ _)
  | .shr .., h | .shl .., h => nextHolds_next (reg_setReg_setReg_of_beq_or ((Bool.or_comm _ _).trans h) s _ _)
  | .drw x y n, h => execDrw_keeps_reg x y n s (ne_of_beq_false h)
  | .skp x, _ => keySkip_keeps_reg (.skp x) x true s r
  | .sknp x, _ => keySkip_keeps_reg (.sknp x) x false s r
  | .ldVxK _, h => execLdVxK_keeps_reg h s
  | .ldB x, _ => finish_keeps_reg (storeBytes_keeps_reg _ _ s r) (.ldB x) _
  | .ldMemVx x, _ => finish_keeps_reg (storeBytes_keeps_reg _ _ s r) (.ldMemVx x) _
  | .ldVxMem x, h =>
    finish_keeps_reg ((loadRegs_onlyRegs x _ s).mono fun _ ht => ht.2 r (Nat.lt_of_not_le (of_decide_eq_false h)))
      (.ldVxMem x) _

/-- Settles O57, instruction by instruction. -/
theorem registersAreWrittenOnlyWhereNamed : Obligations.RegistersAreWrittenOnlyWhereNamed :=
  fun i s t r ht h => exec_keeps_reg i s r h t ht

end Sys2Proof.Machine
end

section
/-! Proofs of the statements about memory (20_memory): what a fetch reads, what a store leaves for it to read, and the
Resets that are refused. -/

namespace Sys2Proof.Machine

/-! ## Words (R54, R55) -/

/-- A word is there exactly where its two bytes are, the lower address high. -/
theorem wordAt_eq_some {s : State} {a : Nat} {w : Word} :
    s.wordAt a = some w ↔
      ∃ hi lo, s.byteAt a = some hi ∧ s.byteAt (a + 1) = some lo ∧ wordOfBytes hi lo = w := by
  unfold State.wordAt
  split
  · next h =>
    have ha : a ≤ 4095 := by omega
    simp [State.byteAt, h, ha]
  · next h => simp [State.byteAt, h]

theorem wordAt_eq_none {s : State} {a : Nat} : s.wordAt a = none ↔ 4095 < a + 1 := by
  unfold State.wordAt
  split <;> simp_all

/-- Settles O7: the word is `wordOfBytes` of the bytes at `a` and `a + 1`, and there is none where `a + 1` is past the
last address. -/
theorem fetchReadsTwoBytesBigEndian : Obligations.FetchReadsTwoBytesBigEndian := by
  intro s a
  refine ⟨wordAt_eq_none.mpr, fun ha => ?_⟩
  obtain ⟨w, hw⟩ := Option.ne_none_iff_exists'.mp (mt wordAt_eq_none.mp (Nat.not_lt.mpr ha))
  obtain ⟨hi, lo, hhi, hlo, rfl⟩ := wordAt_eq_some.mp hw
  exact ⟨_, hi, lo, hw, hhi, hlo, toNat_wordOfBytes hi lo⟩

/-! ## The bytes of a register store (R60, 43 R164) -/

theorem length_registersUpTo (s : State) (x : Nibble) : (registersUpTo s x).length = x.toNat + 1 := by
  have := x.isLt
  simp only [registersUpTo, List.length_take, Vector.length_toList]
  omega

theorem getElem_registersUpTo (s : State) (x k : Nibble) (hk : k.toNat < (registersUpTo s x).length) :
    (registersUpTo s x)[k.toNat] = s.reg k := by
  simp [registersUpTo, State.reg]

/-- FX55 with every address in memory stores `V0` to `Vx` and goes on (43 R164). -/
theorem exec_ldMemVx_of_fits {x : Nibble} {s : State} (h : s.i.toNat + x.toNat ≤ 4095) :
    exec (.ldMemVx x) s = .next (s.setBytes s.i.toNat (registersUpTo s x)) := by
  have hfit : s.i.toNat + (registersUpTo s x).length ≤ 4096 := by
    rw [length_registersUpTo]
    omega
  show finish _ _ (storeBytes s.i.toNat (registersUpTo s x) s) = _
  rw [storeBytes_fits s hfit, finish_went]

/-- After `V0` to `Vx` are stored at `a`, the byte at `a + k` is `Vk`. -/
theorem byteAt_setBytes_registersUpTo {s : State} (hm : s.mem.wf s.params = true) {a : Nat} {x k : Nibble}
    (ha : a + x.toNat ≤ 4095) (hk : k.toNat ≤ x.toNat) :
    (s.setBytes a (registersUpTo s x)).byteAt (a + k.toNat) = some (s.reg k) := by
  have hlen := length_registersUpTo s x
  rw [byteAt_setBytes_inside hm (by omega) (by omega), getElem_registersUpTo]

/-- Settles O35: the bytes at `I` and `I + 1` after the store are `V0` and `V1`, and the word there is made of them. -/
theorem storedBytesAreTheNextFetch : Obligations.StoredBytesAreTheNextFetch := by
  intro x s hm hx hfit
  have hhi := byteAt_setBytes_registersUpTo hm (k := 0) hfit (Nat.zero_le _)
  have hlo := byteAt_setBytes_registersUpTo hm (k := 1) hfit hx
  exact ⟨_, _, exec_ldMemVx_of_fits hfit, wordAt_eq_some.mpr ⟨_, _, hhi, hlo, rfl⟩, toNat_wordOfBytes _ _⟩

/-! ## Refused Resets (R66, 46 R220, 60 R256) -/

theorem romFits_iff {rom : List Byte} : romFits rom = true ↔ rom.length ≤ 3584 := decide_eq_true_iff
theorem cpuHzLegal_iff {p : Params} : p.cpuHzLegal = true ↔ 1 ≤ p.cpuHz := decide_eq_true_iff
theorem fontFits_iff {p : Params} : p.fontFits = true ↔ p.fontBase + 80 ≤ 4096 := decide_eq_true_iff

/-- Where the host's next event is a Reset, the step is that Reset. -/
theorem step_of_reset {s : State} {p : Params} {rom : List Byte} {now : Micros} {rest : List HostEvent}
    (h : s.host = .reset p rom now :: rest) : step s = resetCore p rom now rest := by
  unfold step hostStep
  rw [h]

section
variable {p : Params} {rom : List Byte} (now : Micros) (todo : List HostEvent)

theorem resetCore_romTooLong (h : 3584 < rom.length) : resetCore p rom now todo = .refused .romTooLong := by
  have hrom : romFits rom = false := Bool.eq_false_iff.mpr (mt romFits_iff.mp (Nat.not_le.mpr h))
  rw [resetCore, if_pos hrom]

theorem resetCore_cpuHzZero (hrom : rom.length ≤ 3584) (h : p.cpuHz = 0) :
    resetCore p rom now todo = .refused .cpuHzZero := by
  have hhz : p.cpuHzLegal = false := Bool.eq_false_iff.mpr (mt cpuHzLegal_iff.mp (by omega))
  rw [resetCore, if_neg (by simp [romFits_iff, hrom]), if_pos hhz]

theorem resetCore_fontOutsideMemory (hrom : rom.length ≤ 3584) (hhz : 1 ≤ p.cpuHz) (h : 4096 < p.fontBase + 80) :
    resetCore p rom now todo = .refused .fontOutsideMemory := by
  have hfont : p.fontFits = false := Bool.eq_false_iff.mpr (mt fontFits_iff.mp (Nat.not_le.mpr h))
  rw [resetCore, if_neg (by simp [romFits_iff, hrom]), if_neg (by simp [cpuHzLegal_iff, hhz]), if_pos hfont]

end

/-- Settles O53: the three checks of a Reset, in their order. -/
theorem resetRefusesBadInputs : Obligations.ResetRefusesBadInputs := by
  intro s p rom now rest hhost
  rw [step_of_reset hhost]
  exact ⟨resetCore_romTooLong now rest, resetCore_cpuHzZero now rest, resetCore_fontOutsideMemory now rest⟩

end Sys2Proof.Machine
end

section
/-! Proofs of the statements about the encoding (30_encoding): every instruction's word decodes to it, and what the
decoder can answer for a word is said once (`decodeWord_answersFor`). -/

namespace Sys2Proof

/-! ## The word of an instruction decodes to it (R82, R84) -/

theorem decodeWord_encode (i : Instr) : decodeWord (encode i) = .ok i := by
  cases i with
  | jp | call | seImm | sneImm | ldImm | addImm | ldI | jpV0 | rnd | drw => simp [decodeWord, encode]
  | cls | ret => simp [decodeWord, encode, decodeFamily0]
  | seReg => simp [decodeWord, encode, decodeFamily5]
  | ldReg | orReg | andReg | xorReg | addReg | subReg | shr | subnReg | shl =>
    simp [decodeWord, encode, decodeFamily8]
  | sneReg => simp [decodeWord, encode, decodeFamily9]
  | skp | sknp => simp [decodeWord, encode, decodeFamilyE]
  | ldVxDt | ldVxK | ldDtVx | ldStVx | addI | ldF | ldB | ldMemVx | ldVxMem =>
    simp [decodeWord, encode, decodeFamilyF]

theorem decodeWord_of_encode_eq {i : Instr} {w : Word} (h : encode i = w) : decodeWord w = .ok i :=
  h ▸ decodeWord_encode i

/-- A word laid out in memory order decodes as the word, whatever bytes follow (R80). -/
theorem decode_bytesOfWord_append {w : Word} {i : Instr} (h : decodeWord w = .ok i) (rest : List Byte) :
    decode (bytesOfWord w ++ rest) = .ok (i, rest) := by
  show decode (_ :: _ :: rest) = _
  rw [decode_two, wordOfBytes_split, h]

/-- Settles O1: the two bytes make the word again, and the word decodes to the instruction. -/
theorem decodeOfEncodeIsTheInstruction : Obligations.DecodeOfEncodeIsTheInstruction :=
  fun i rest => decode_bytesOfWord_append (decodeWord_encode i) rest

/-- Settles O5: each word is the encoding of its instruction. -/
theorem sampleWordsDecodeAsTheSpecSays : Obligations.SampleWordsDecodeAsTheSpecSays := by
  refine ⟨?_, ?_, ?_, ?_, ?_, ?_, ?_, ?_, ?_⟩ <;> exact decodeWord_of_encode_eq (by decide)

/-! ## A word from the fields a row fixes and those it reads -/

section
variable {w : Word} {op : Nibble}

theorem packNibbles_of_fields {n : Nibble} (hop : opField w = op) (hn : nField w = n) :
    packNibbles op (xField w) (yField w) n = w := by
  rw [← hop, ← hn, packNibbles_fields]

theorem packByte_of_fields {nn : Byte} (hop : opField w = op) (hnn : nnField w = nn) :
    packByte op (xField w) nn = w := by
  rw [← hop, ← hnn, packByte_fields]

theorem packAddr_of_fields (hop : opField w = op) : packAddr op (nnnField w) = w := by
  rw [← hop, packAddr_fields]

end

/-! ## What the decoder can answer (R84 to R86) -/

/-- A right answer for `w`, which the spec leaves undefined exactly when `undefined` holds: an instruction whose word
is `w`, or the refusal of `w` by name. -/
def AnswersFor (w : Word) (undefined : Prop) : Except Reject Instr → Prop
  | .ok i => encode i = w ∧ ¬ undefined
  | .error r => r = .undefinedWord w ∧ undefined

theorem AnswersFor.ite {w : Word} {P : Prop} {d e : Except Reject Instr} {c : Prop} [Decidable c]
    (hd : c → AnswersFor w P d) (he : ¬ c → AnswersFor w P e) : AnswersFor w P (if c then d else e) :=
  iteInduction hd he

theorem AnswersFor.congr {w : Word} {P Q : Prop} {d : Except Reject Instr} (h : AnswersFor w P d) (hPQ : Q ↔ P) :
    AnswersFor w Q d :=
  propext hPQ ▸ h

theorem AnswersFor.encode_eq {w : Word} {P : Prop} {d : Except Reject Instr} {i : Instr} (h : AnswersFor w P d)
    (hd : d = .ok i) : encode i = w := by
  subst hd
  exact h.1

theorem AnswersFor.undefined {w : Word} {P : Prop} {d : Except Reject Instr} {r : Reject} (h : AnswersFor w P d)
    (hd : d = .error r) : P := by
  subst hd
  exact h.2

theorem AnswersFor.refused_iff {w : Word} {P : Prop} {d : Except Reject Instr} (h : AnswersFor w P d) :
    d = .error (.undefinedWord w) ↔ P := by
  cases d with
  | ok i => simp [h.2]
  | error r => simp [h.1, h.2]

section
variable {w : Word}

theorem decodeFamily0_answersFor (hop : opField w = 0x0) :
    AnswersFor w (nnField w ≠ 0xE0 ∧ nnField w ≠ 0xEE) (decodeFamily0 w) := by
  unfold decodeFamily0
  split_ifs with h₁ h₂
  · exact ⟨packByte_of_fields hop h₁, fun h => h.1 h₁⟩
  · exact ⟨packByte_of_fields hop h₂, fun h => h.2 h₂⟩
  · exact ⟨rfl, h₁, h₂⟩

theorem decodeFamily5_answersFor (hop : opField w = 0x5) : AnswersFor w (nField w ≠ 0) (decodeFamily5 w) := by
  unfold decodeFamily5
  split_ifs with hn
  · exact ⟨packNibbles_of_fields hop hn, not_not_intro hn⟩
  · exact ⟨rfl, hn⟩

theorem decodeFamily8_answersFor (hop : opField w = 0x8) :
    AnswersFor w (nField w ∈ [0x8, 0x9, 0xA, 0xB, 0xC, 0xD, 0xF]) (decodeFamily8 w) := by
  unfold decodeFamily8
  iterate 9 refine .ite (fun h => ⟨packNibbles_of_fields hop h, by rw [h]; decide⟩) fun _ => ?_
  have others : ∀ n : Nibble, n ∉ [0, 1, 2, 3, 4, 5, 6, 7, 0xE] → n ∈ [0x8, 0x9, 0xA, 0xB, 0xC, 0xD, 0xF] := by decide
  refine ⟨rfl, others _ ?_⟩
  simp only [List.mem_cons, List.not_mem_nil, or_false, not_or]
  and_intros <;> assumption

theorem decodeFamily9_answersFor (hop : opField w = 0x9) : AnswersFor w (nField w ≠ 0) (decodeFamily9 w) := by
  unfold decodeFamily9
  split_ifs with hn
  · exact ⟨packNibbles_of_fields hop hn, not_not_intro hn⟩
  · exact ⟨rfl, hn⟩

theorem decodeFamilyE_answersFor (hop : opField w = 0xE) :
    AnswersFor w (nnField w ≠ 0x9E ∧ nnField w ≠ 0xA1) (decodeFamilyE w) := by
  unfold decodeFamilyE
  split_ifs with h₁ h₂
  · exact ⟨packByte_of_fields hop h₁, fun h => h.1 h₁⟩
  · exact ⟨packByte_of_fields hop h₂, fun h => h.2 h₂⟩
  · exact ⟨rfl, h₁, h₂⟩

theorem decodeFamilyF_answersFor (hop : opField w = 0xF) :
    AnswersFor w (nnField w ∉ [0x07, 0x0A, 0x15, 0x18, 0x1E, 0x29, 0x33, 0x55, 0x65]) (decodeFamilyF w) := by
  unfold decodeFamilyF
  iterate 9 refine .ite (fun h => ⟨packByte_of_fields hop h, by rw [h]; decide⟩) fun _ => ?_
  refine ⟨rfl, ?_⟩
  simp only [List.mem_cons, List.not_mem_nil, or_false, not_or]
  and_intros <;> assumption

end

/-- The table of undefined words (R86). -/
def UndefinedWord (w : Word) : Prop :=
  (opField w = 0x0 ∧ nnField w ≠ 0xE0 ∧ nnField w ≠ 0xEE) ∨
  (opField w = 0x5 ∧ nField w ≠ 0) ∨
  (opField w = 0x8 ∧ nField w ∈ [0x8, 0x9, 0xA, 0xB, 0xC, 0xD, 0xF]) ∨
  (opField w = 0x9 ∧ nField w ≠ 0) ∨
  (opField w = 0xE ∧ nnField w ≠ 0x9E ∧ nnField w ≠ 0xA1) ∨
  (opField w = 0xF ∧ nnField w ∉ [0x07, 0x0A, 0x15, 0x18, 0x1E, 0x29, 0x33, 0x55, 0x65])

/-- The families 1, 2, 3, 4, 6, 7, A, B, C and D have no undefined word. -/
theorem answersFor_ok {w : Word} {op : Nibble} {i : Instr} (hop : opField w = op)
    (hdef : op ∉ [0x0, 0x5, 0x8, 0x9, 0xE, 0xF]) (henc : encode i = w) : AnswersFor w (UndefinedWord w) (.ok i) := by
  refine ⟨henc, ?_⟩
  subst hop
  rintro (⟨h, -⟩ | ⟨h, -⟩ | ⟨h, -⟩ | ⟨h, -⟩ | ⟨h, -⟩ | ⟨h, -⟩) <;> exact hdef (by simp [h])

/-- The decoder's dispatch on `op`, branch by branch. -/
theorem decodeWord_answersFor (w : Word) : AnswersFor w (UndefinedWord w) (decodeWord w) := by
  unfold decodeWord
  refine .ite (fun h => (decodeFamily0_answersFor h).congr (by simp [UndefinedWord, h])) fun h₀ => ?_
  refine .ite (fun h => answersFor_ok h (by decide) (packAddr_of_fields h)) fun h₁ => ?_
  refine .ite (fun h => answersFor_ok h (by decide) (packAddr_of_fields h)) fun h₂ => ?_
  refine .ite (fun h => answersFor_ok h (by decide) (packByte_of_fields h rfl)) fun h₃ => ?_
  refine .ite (fun h => answersFor_ok h (by decide) (packByte_of_fields h rfl)) fun h₄ => ?_
  refine .ite (fun h => (decodeFamily5_answersFor h).congr (by simp [UndefinedWord, h])) fun h₅ => ?_
  refine .ite (fun h => answersFor_ok h (by decide) (packByte_of_fields h rfl)) fun h₆ => ?_
  refine .ite (fun h => answersFor_ok h (by decide) (packByte_of_fields h rfl)) fun h₇ => ?_
  refine .ite (fun h => (decodeFamily8_answersFor h).congr (by simp [UndefinedWord, h])) fun h₈ => ?_
  refine .ite (fun h => (decodeFamily9_answersFor h).congr (by simp [UndefinedWord, h])) fun h₉ => ?_
  refine .ite (fun h => answersFor_ok h (by decide) (packAddr_of_fields h)) fun hA => ?_
  refine .ite (fun h => answersFor_ok h (by decide) (packAddr_of_fields h)) fun hB => ?_
  refine .ite (fun h => answersFor_ok h (by decide) (packByte_of_fields h rfl)) fun hC => ?_
  refine .ite (fun h => answersFor_ok h (by decide) (packNibbles_of_fields h rfl)) fun hD => ?_
  refine .ite (fun h => (decodeFamilyE_answersFor h).congr (by simp [UndefinedWord, h])) fun hE => ?_
  have last : ∀ op : Nibble, op ∉ [0, 1, 2, 3, 4, 5, 6, 7, 8, 9, 0xA, 0xB, 0xC, 0xD, 0xE] → op = 0xF := by decide
  have hF : opField w = 0xF := by
    apply last
    simp only [List.mem_cons, List.not_mem_nil, or_false, not_or]
    exact ⟨h₀, h₁, h₂, h₃, h₄, h₅, h₆, h₇, h₈, h₉, hA, hB, hC, hD, hE⟩
  exact (decodeFamilyF_answersFor hF).congr (by simp [UndefinedWord, hF])

/-- Settles O2: the decoder's answer for `w`, where it is an instruction, has the word `w`. -/
theorem encodeOfDecodeIsTheWord : Obligations.EncodeOfDecodeIsTheWord :=
  fun w _ h => (decodeWord_answersFor w).encode_eq h

/-- Settles O4: the decoder refuses `w` by name exactly where the table of R86 has it. -/
theorem undefinedWordsAreExactlyTheTable : Obligations.UndefinedWordsAreExactlyTheTable :=
  fun w => (decodeWord_answersFor w).refused_iff

/-! ## The rows of the opcode map (R85) -/

open Laws.OpcodeRow

/-- The word of every instruction matches its row of R85. -/
theorem opcodeRow_statement (i : Instr) : Statement i :=
  match i with
  | .cls x => cls x
  | .ret x => ret x
  | .jp nnn => jp nnn
  | .call nnn => call nnn
  | .seImm x nn => seImm x nn
  | .sneImm x nn => sneImm x nn
  | .seReg x y => seReg x y
  | .ldImm x nn => ldImm x nn
  | .addImm x nn => addImm x nn
  | .ldReg x y => ldReg x y
  | .orReg x y => orReg x y
  | .andReg x y => andReg x y
  | .xorReg x y => xorReg x y
  | .addReg x y => addReg x y
  | .subReg x y => subReg x y
  | .shr x y => shr x y
  | .subnReg x y => subnReg x y
  | .shl x y => shl x y
  | .sneReg x y => sneReg x y
  | .ldI nnn => ldI nnn
  | .jpV0 nnn => jpV0 nnn
  | .rnd x nn => rnd x nn
  | .drw x y n => drw x y n
  | .skp x => skp x
  | .sknp x => sknp x
  | .ldVxDt x => ldVxDt x
  | .ldVxK x => ldVxK x
  | .ldDtVx x => ldDtVx x
  | .ldStVx x => ldStVx x
  | .addI x => addI x
  | .ldF x => ldF x
  | .ldB x => ldB x
  | .ldMemVx x => ldMemVx x
  | .ldVxMem x => ldVxMem x

theorem opcodeRow_eq_of_number {r r' : OpcodeRow} (hr : r ∈ opcodeMap) (hr' : r' ∈ opcodeMap)
    (h : r.number = r'.number) : r = r' :=
  List.inj_on_of_nodup_map (by decide : (opcodeMap.map OpcodeRow.number).Nodup) hr hr' h

/-- No word matches two rows (R84): the values of two rows differ in a bit that both masks keep. -/
theorem opcodeRow_eq_of_matches {w : Word} {r r' : OpcodeRow} (hr : r ∈ opcodeMap) (hr' : r' ∈ opcodeMap)
    (h : w &&& r.mask = r.value) (h' : w &&& r'.mask = r'.value) : r = r' := by
  have apart : ∀ r ∈ opcodeMap, ∀ r' ∈ opcodeMap, r.value &&& r'.mask = r'.value &&& r.mask → r = r' := by decide
  refine apart r hr r' hr' ?_
  rw [← h, ← h', BitVec.and_assoc, BitVec.and_assoc, BitVec.and_comm r.mask]

theorem opField_and (v w : Word) : opField (v &&& w) = opField v &&& opField w := BitVec.extractLsb'_and

theorem nField_and (v w : Word) : nField (v &&& w) = nField v &&& nField w := BitVec.extractLsb'_and

theorem nnField_and (v w : Word) : nnField (v &&& w) = nnField v &&& nnField w := BitVec.extractLsb'_and

/-- Whether a word is undefined rests on `op` and on the selector of its family (R86). -/
theorem undefinedWord_congr {v w : Word} (hop : opField w = opField v)
    (hn : opField v ∈ [0x5, 0x8, 0x9] → nField w = nField v)
    (hnn : opField v ∈ [0x0, 0xE, 0xF] → nnField w = nnField v) : UndefinedWord w ↔ UndefinedWord v := by
  unfold UndefinedWord
  rw [hop]
  refine or_congr (and_congr_right fun h => ?_) <| or_congr (and_congr_right fun h => ?_) <|
    or_congr (and_congr_right fun h => ?_) <| or_congr (and_congr_right fun h => ?_) <|
    or_congr (and_congr_right fun h => ?_) (and_congr_right fun h => ?_)
  · rw [hnn (by simp [h])]
  · rw [hn (by simp [h])]
  · rw [hn (by simp [h])]
  · rw [hn (by simp [h])]
  · rw [hnn (by simp [h])]
  · rw [hnn (by simp [h])]

/-- A word that matches a row has the row's `op` and selector, which no family leaves undefined. -/
theorem not_undefinedWord_of_matches {w : Word} {r : OpcodeRow} (hr : r ∈ opcodeMap) (h : w &&& r.mask = r.value) :
    ¬ UndefinedWord w := by
  have rows : ∀ r ∈ opcodeMap, opField r.mask = 0xF ∧ (opField r.value ∈ [0x5, 0x8, 0x9] → nField r.mask = 0xF) ∧
      (opField r.value ∈ [0x0, 0xE, 0xF] → nnField r.mask = 0xFF) ∧ ¬ UndefinedWord r.value := by
    unfold UndefinedWord
    decide
  obtain ⟨hop, hn, hnn, hdefined⟩ := rows r hr
  refine mt (undefinedWord_congr ?_ (fun ho => ?_) (fun ho => ?_)).mp hdefined
  · rw [← h, opField_and, hop, nibble_and_ones]
  · rw [← h, nField_and, hn ho, nibble_and_ones]
  · rw [← h, nnField_and, hnn ho, byte_and_ones]

/-- Settles O3: a word that matches a row is defined, so it is the word of some instruction, and that one's row is the
only row it matches. -/
theorem opcodeMapDecidesTheRow : Obligations.OpcodeMapDecidesTheRow := by
  intro w r hr
  constructor
  · intro h
    cases hd : decodeWord w with
    | error e => exact absurd ((decodeWord_answersFor w).undefined hd) (not_undefinedWord_of_matches hr h)
    | ok i =>
      obtain ⟨r', hr', hnum, h'⟩ := opcodeRow_statement i
      rw [(decodeWord_answersFor w).encode_eq hd] at h'
      rw [opcodeRow_eq_of_matches hr hr' h h']
      exact ⟨i, rfl, hnum.symm⟩
  · rintro ⟨i, hd, hnum⟩
    obtain ⟨r', hr', hnum', h'⟩ := opcodeRow_statement i
    rw [(decodeWord_answersFor w).encode_eq hd] at h'
    rwa [opcodeRow_eq_of_number hr hr' (hnum.symm.trans hnum'.symm)]

end Sys2Proof
end

section
/-! Proofs of the statements about fetch, decode and execute (40_fetch_decode_execute): the two ways a Tick halts before
an instruction runs, what each instruction may write, and which instructions read the inputs. -/

namespace Sys2Proof.Machine

/-! ## Changes one after the other -/

theorem Piece.same_trans {p : Piece} {s t u : State} (h : p.same s t) (k : p.same t u) : p.same s u := by
  cases p <;> simp_all [Piece.same]

/-- What two changes in a row may alter is what either of them may. -/
theorem changesOnly.trans {l m : List Nibble} {ps qs : List Piece} {s t u : State} (h : changesOnly l ps s t)
    (k : changesOnly m qs t u) : changesOnly (l ++ m) (ps ++ qs) s u := by
  obtain ⟨hregs, hpieces, hmem⟩ := h
  obtain ⟨kregs, kpieces, kmem⟩ := k
  refine ⟨fun x hx => ?_, fun p hp => ?_, fun a => (kmem a).trans (hmem a)⟩
  · rw [List.mem_append, not_or] at hx
    exact (kregs x hx.2).trans (hregs x hx.1)
  · rw [List.mem_append, not_or] at hp
    exact Piece.same_trans (hpieces p hp.1) (kpieces p hp.2)

/-! ## Ticks that halt (R101, R103) -/

theorem tick_of_fetch_fault {s : State} (hrun : s.halted = false) (hpc : 4094 < s.pc.toNat) :
    tick s = .next (raise .memoryFault 0x0000 s.pc s) := by
  have hword : s.wordAt s.pc.toNat = none := wordAt_eq_none.mpr (Nat.add_lt_add_right hpc 1)
  simp [tick, hrun, hword]

theorem tick_of_undefined_word {s : State} {w : Word} {r : Reject} (hrun : s.halted = false)
    (hword : s.wordAt s.pc.toNat = some w) (hdecode : decodeWord w = .error r) :
    tick s = .next (raise .decodeError w s.pc (s.setPc (s.pc + 2))) := by
  simp [tick, hrun, hword, decodeAndExec, hdecode]

/-- Settles O8: the Tick is the raise, with no word to record. -/
theorem fetchPastTheEndHalts : Obligations.FetchPastTheEndHalts := fun s hrun hpc =>
  ⟨_, tick_of_fetch_fault hrun hpc, haltedWith_raise .memoryFault 0x0000 s.pc s,
    changesOnly_raise [] .memoryFault 0x0000 s.pc s⟩

/-- Settles O9: the Tick is the PC advance and then the raise. -/
theorem undefinedWordHalts : Obligations.UndefinedWordHalts := fun s w _ hrun hword hdecode =>
  ⟨_, tick_of_undefined_word hrun hword hdecode, haltedWith_raise .decodeError w s.pc _, rfl,
    (changesOnly_setPc [] s _).trans (changesOnly_raise [] .decodeError w s.pc _)⟩

/-! ## Frames of the updates -/

theorem changesOnly_skipIf (b : Bool) (s : State) : changesOnly [] [.programCounter] s (skipIf b s) := by
  cases b with
  | false => exact changesOnly_refl _ _ s
  | true => exact changesOnly_setPc [] s _

theorem changesOnly_setDt (s : State) (b : Byte) : changesOnly [] [.delayTimer] s { s with dt := b } := by
  refine ⟨fun _ _ => rfl, fun p hp => ?_, fun _ => rfl⟩
  cases p <;> simp_all [Piece.same]

theorem changesOnly_setSt (s : State) (b : Byte) : changesOnly [] [.soundTimer] s { s with st := b } := by
  refine ⟨fun _ _ => rfl, fun p hp => ?_, fun _ => rfl⟩
  cases p <;> simp_all [Piece.same]

theorem changesOnly_setScreen (s : State) (f : Screen) (d : Bool) :
    changesOnly [] [.screen, .dirtyFlag] s { s with fb := f, dirty := d } := by
  refine ⟨fun _ _ => rfl, fun p hp => ?_, fun _ => rfl⟩
  cases p <;> simp_all [Piece.same]

theorem changesOnly_setStack (s : State) (stack : List Word) (sp : Nat) (pc : Word) :
    changesOnly [] [.programCounter, .callStack] s { s with stack := stack, sp := sp, pc := pc } := by
  refine ⟨fun _ _ => rfl, fun p hp => ?_, fun _ => rfl⟩
  cases p <;> simp_all [Piece.same]

theorem changesOnly_onlyDraws {s t : State} (h : onlyDraws s t) : changesOnly [flagReg] [.screen] s t :=
  ⟨fun x hx => h.2 x (by simpa using hx), onlyDraws_pieces h, onlyDraws_byteAt h⟩

theorem keepsPiecesBut_onlyRegs {s t : State} (h : onlyRegs s t) : keepsPiecesBut [] s t := by
  intro p _
  rw [h]
  cases p <;> simp [Piece.same]

/-! ## The pieces and memory under each instruction (10_state section 1) -/

/-- `t` differs from `s`, beside the V registers, at most in what 10_state section 1 lets the instruction write. -/
def writesAsNamed (i : Instr) (s t : State) : Prop :=
  (∀ p : Piece, mayWritePiece i p = false → p.same s t) ∧ (mayWriteMemory i = false → keepsMemory s t)

theorem writesAsNamed.trans {i : Instr} {s t u : State} (h : writesAsNamed i s t) (k : writesAsNamed i t u) :
    writesAsNamed i s u := by
  obtain ⟨hpieces, hmem⟩ := h
  obtain ⟨kpieces, kmem⟩ := k
  exact ⟨fun p hp => Piece.same_trans (hpieces p hp) (kpieces p hp), fun hm a => (kmem hm a).trans (hmem hm a)⟩

/-- A change of pieces `ps` is as named where the instruction's row names all of `ps`. -/
theorem writesAsNamed_of_keeps {i : Instr} {ps : List Piece} {s t : State} (hpieces : keepsPiecesBut ps s t)
    (hmem : mayWriteMemory i = false → keepsMemory s t) (hnamed : ps.all (mayWritePiece i) = true) :
    writesAsNamed i s t := by
  refine ⟨fun p hp => hpieces p fun hin => ?_, hmem⟩
  have hwrites := List.all_eq_true.mp hnamed p hin
  exact Bool.true_eq_false.mp (hwrites.symm.trans hp)

theorem writesAsNamed_of_changesOnly {i : Instr} {l : List Nibble} {ps : List Piece} {s t : State}
    (h : changesOnly l ps s t) (hnamed : ps.all (mayWritePiece i) = true) : writesAsNamed i s t :=
  writesAsNamed_of_keeps h.2.1 (fun _ => h.2.2) hnamed

section
variable {i : Instr} {s : State}

theorem next_writesAsNamed {l : List Nibble} {ps : List Piece} {t : State} (h : changesOnly l ps s t)
    (hnamed : ps.all (mayWritePiece i) = true) : nextHolds (writesAsNamed i s) (.next t) :=
  nextHolds_next (writesAsNamed_of_changesOnly h hnamed)

/-- An instruction whose row names the error record may end in a raise. -/
theorem finish_writesAsNamed {p : Part} (h : p.Holds (writesAsNamed i s))
    (hnamed : [Piece.errorRecord].all (mayWritePiece i) = true) (a : Word) :
    nextHolds (writesAsNamed i s) (finish i a p) :=
  h.finish (fun c w pc0 t ht => ht.trans (writesAsNamed_of_changesOnly (changesOnly_raise [] c w pc0 t) hnamed)) i a

theorem pushReturn_writesAsNamed (a : Word)
    (hnamed : [Piece.programCounter, .callStack].all (mayWritePiece i) = true) :
    (pushReturn a s).Holds (writesAsNamed i s) := by
  obtain ⟨-, he⟩ | ⟨-, -, he⟩ | ⟨-, -, he⟩ := pushReturn_cases a s <;> rw [he]
  · exact writesAsNamed_of_changesOnly (changesOnly_refl [] _ s) hnamed
  · exact writesAsNamed_of_changesOnly (changesOnly_setStack s _ _ s.pc) hnamed
  · trivial

theorem popIntoPc_writesAsNamed (hnamed : [Piece.programCounter, .callStack].all (mayWritePiece i) = true) :
    (popIntoPc s).Holds (writesAsNamed i s) := by
  obtain ⟨-, he⟩ | ⟨a, -, -, he⟩ | ⟨-, -, he⟩ := popIntoPc_cases s <;> rw [he]
  · exact writesAsNamed_of_changesOnly (changesOnly_refl [] _ s) hnamed
  · exact writesAsNamed_of_changesOnly (changesOnly_setStack s s.stack _ a) hnamed
  · trivial

theorem storeBytes_writesAsNamed (hmem : mayWriteMemory i = true) (a : Nat) (bs : List Byte) :
    (storeBytes a bs s).Holds (writesAsNamed i s) := by
  refine (storeBytes_setBytes a bs s).mono fun t ⟨cs, _, ht⟩ => ?_
  rw [ht]
  exact writesAsNamed_of_keeps (keepsPiecesBut_setBytes [] s a cs) (by simp [hmem]) rfl

theorem loadRegs_writesAsNamed (x : Nibble) (a : Nat) :
    (loadRegs (x.toNat + 1) 0 a s).Holds (writesAsNamed i s) :=
  (loadRegs_onlyRegs x a s).mono fun _ ⟨ht, _⟩ =>
    writesAsNamed_of_keeps (keepsPiecesBut_onlyRegs ht) (fun _ => byteAt_onlyRegs ht) rfl

theorem keySkip_writesAsNamed (x : Nibble) (want : Bool) (hpc : [Piece.programCounter].all (mayWritePiece i) = true)
    (herr : [Piece.errorRecord].all (mayWritePiece i) = true) :
    nextHolds (writesAsNamed i s) (keySkip i x want s) := by
  refine finish_writesAsNamed ?_ herr _
  split
  · exact writesAsNamed_of_changesOnly (changesOnly_refl [] _ s) herr
  · exact writesAsNamed_of_changesOnly (changesOnly_skipIf _ s) hpc

end

theorem execCall_writesAsNamed (nnn : Addr) (s : State) : nextHolds (writesAsNamed (.call nnn) s) (execCall nnn s) := by
  refine finish_writesAsNamed ((pushReturn_writesAsNamed _ rfl).andThen fun t ht => ?_) rfl _
  exact ht.trans (writesAsNamed_of_changesOnly (changesOnly_setPc [] t _) rfl)

/-- Drawing clears VF, paints what rows it can read, and sets DIRTY when it drew them all (44 R181). -/
theorem execDrw_writesAsNamed (x y n : Nibble) (s : State) :
    nextHolds (writesAsNamed (.drw x y n) s) (execDrw x y n s) := by
  have hrows := (drawRows_onlyDraws (s.reg x) (s.reg y) n (s.setReg flagReg 0x00)).mono fun _ ht =>
    writesAsNamed_of_changesOnly (i := .drw x y n)
      ((changesOnly_setReg [] s flagReg 0x00).trans (changesOnly_onlyDraws ht)) rfl
  refine finish_writesAsNamed (hrows.andThen fun t ht => ?_) rfl _
  exact ht.trans (writesAsNamed_of_changesOnly (changesOnly_setScreen t t.fb true) rfl)

theorem execLdVxK_writesAsNamed (x : Nibble) (s : State) :
    nextHolds (writesAsNamed (.ldVxK x) s) (execLdVxK x s) := by
  unfold execLdVxK
  split
  · exact next_writesAsNamed (changesOnly_setPc [] s _) rfl
  · exact next_writesAsNamed (changesOnly_setReg [] s x _) rfl

/-- An instruction keeps every piece, and memory, that its row does not name. -/
theorem exec_writesAsNamed (i : Instr) (s : State) : nextHolds (writesAsNamed i s) (exec i s) :=
  match i with
  | .cls _ => next_writesAsNamed (changesOnly_setScreen s blankScreen true) rfl
  | .ret _ => finish_writesAsNamed (popIntoPc_writesAsNamed rfl) rfl _
  | .jp _ | .jpV0 _ => next_writesAsNamed (changesOnly_setPc [] s _) rfl
  | .call nnn => execCall_writesAsNamed nnn s
  | .seImm .. | .sneImm .. | .seReg .. | .sneReg .. => next_writesAsNamed (changesOnly_skipIf _ s) rfl
  | .ldImm x _ | .addImm x _ | .rnd x _ | .ldVxDt x => next_writesAsNamed (changesOnly_setReg [] s x _) rfl
  | .ldReg x _ | .orReg x _ | .andReg x _ | .xorReg x _ => next_writesAsNamed (changesOnly_setReg [] s x _) rfl
  | .addReg x _ | .subReg x _ | .subnReg x _ =>
    next_writesAsNamed ((changesOnly_setReg [] s x _).trans (changesOnly_setReg [] _ flagReg _)) rfl
  | .shr x _ | .shl x _ =>
    next_writesAsNamed ((changesOnly_setReg [] s flagReg _).trans (changesOnly_setReg [] _ x _)) rfl
  | .ldI _ | .addI _ | .ldF _ => next_writesAsNamed (changesOnly_setI [] s _) rfl
  | .drw x y n => execDrw_writesAsNamed x y n s
  | .skp x => keySkip_writesAsNamed x true rfl rfl
  | .sknp x => keySkip_writesAsNamed x false rfl rfl
  | .ldVxK x => execLdVxK_writesAsNamed x s
  | .ldDtVx _ => next_writesAsNamed (changesOnly_setDt s _) rfl
  | .ldStVx _ => next_writesAsNamed (changesOnly_setSt s _) rfl
  | .ldB _ | .ldMemVx _ => finish_writesAsNamed (storeBytes_writesAsNamed rfl _ _) rfl _
  | .ldVxMem x => finish_writesAsNamed (loadRegs_writesAsNamed x _) rfl _

/-- Settles O58, instruction by instruction. -/
theorem piecesAreWrittenOnlyWhereNamed : Obligations.PiecesAreWrittenOnlyWhereNamed :=
  fun i s t ht => exec_writesAsNamed i s t ht

/-! ## Other inputs (R106) -/

/-- The state with other keys and another random byte sampled. -/
def State.withInputs (keys : BitVec 16) (rand : Byte) (s : State) : State := { s with keys := keys, rand := rand }

/-- Apply `g` to the state a piece of an instruction came to. -/
def Part.map (g : State → State) : Part → Part
  | .went s => .went (g s)
  | .raised c s => .raised c (g s)
  | .broken f => .broken f

theorem andThen_map {g : State → State} {p q : Part} {f : State → Part} (h : q = p.map g)
    (hf : ∀ t, f (g t) = (f t).map g) : q.andThen f = (p.andThen f).map g := by
  rw [h]
  cases p with
  | went t => exact hf t
  | raised c t => rfl
  | broken r => rfl

section
variable (keys : BitVec 16) (rand : Byte)

/-- Raising reads no input, so an instruction whose pieces come to the same whatever the inputs ends the same. -/
theorem finish_withInputs {p q : Part} (h : q = p.map (State.withInputs keys rand)) (i : Instr) (a : Word) :
    finish i a q = mapNext (State.withInputs keys rand) (finish i a p) := by
  rw [h]
  cases p <;> rfl

theorem skipIf_withInputs (b : Bool) (s : State) :
    skipIf b (s.withInputs keys rand) = (skipIf b s).withInputs keys rand := by
  cases b <;> rfl

theorem pushReturn_withInputs (a : Word) (s : State) :
    pushReturn a (s.withInputs keys rand) = (pushReturn a s).map (State.withInputs keys rand) := by
  obtain ⟨h, he⟩ | ⟨h, hl, he⟩ | ⟨h, hl, he⟩ := pushReturn_cases a s <;> rw [he]
  · exact if_pos h
  · exact (if_neg h).trans (if_pos hl)
  · exact (if_neg h).trans (if_neg (Nat.not_lt.mpr hl))

theorem popIntoPc_withInputs (s : State) :
    popIntoPc (s.withInputs keys rand) = (popIntoPc s).map (State.withInputs keys rand) := by
  obtain ⟨h, he⟩ | ⟨a, h, ha, he⟩ | ⟨h, ha, he⟩ := popIntoPc_cases s <;> rw [he]
  · exact if_pos h
  · simp [popIntoPc, State.withInputs, Part.map, h, ha]
  · simp [popIntoPc, State.withInputs, Part.map, h, ha]

theorem storeBytes_withInputs (a : Nat) (bs : List Byte) (s : State) :
    storeBytes a bs (s.withInputs keys rand) = (storeBytes a bs s).map (State.withInputs keys rand) := by
  simp only [storeBytes_eq]
  split <;> rfl

theorem loadReg_withInputs (k a : Nat) (s : State) :
    loadReg k a (s.withInputs keys rand) = (loadReg k a s).map (State.withInputs keys rand) := by
  have hbyte : (s.withInputs keys rand).byteAt a = s.byteAt a := rfl
  rw [loadReg, loadReg, hbyte]
  cases s.byteAt a <;> rfl

theorem loadRegs_withInputs (todo k a : Nat) (s : State) :
    loadRegs todo k a (s.withInputs keys rand) = (loadRegs todo k a s).map (State.withInputs keys rand) := by
  induction todo generalizing k a s with
  | zero => rfl
  | succ todo ih => exact andThen_map (loadReg_withInputs keys rand k a s) (ih (k + 1) (a + 1))

theorem togglePixel_withInputs (row col : Nat) (s : State) :
    togglePixel row col (s.withInputs keys rand) = (togglePixel row col s).withInputs keys rand := by
  rw [togglePixel, togglePixel, apply_ite (State.withInputs keys rand)]
  rfl

theorem plotPixel_withInputs (row col : Nat) (s : State) :
    plotPixel row col (s.withInputs keys rand) = (plotPixel row col s).withInputs keys rand := by
  have hparams : (s.withInputs keys rand).params = s.params := rfl
  rw [plotPixel, plotPixel, hparams]
  cases s.params.spriteEdge with
  | clip =>
    simp only [togglePixel_withInputs]
    split <;> rfl
  | wrap => exact togglePixel_withInputs keys rand _ _ s

theorem drawBits_withInputs (b : Byte) (row sx todo c : Nat) (s : State) :
    drawBits b row sx todo c (s.withInputs keys rand) = (drawBits b row sx todo c s).withInputs keys rand := by
  induction todo generalizing c s with
  | zero => rfl
  | succ todo ih =>
    rw [drawBits, drawBits, plotPixel_withInputs, ← ih]
    congr 1
    split <;> rfl

theorem drawRow_withInputs (sx sy r : Nat) (s : State) :
    drawRow sx sy r (s.withInputs keys rand) = (drawRow sx sy r s).map (State.withInputs keys rand) := by
  have hbyte : (s.withInputs keys rand).byteAt (effectiveAddress (s.withInputs keys rand) r) =
      s.byteAt (effectiveAddress s r) := rfl
  rw [drawRow, drawRow, hbyte]
  cases s.byteAt (effectiveAddress s r) with
  | none => rfl
  | some b => exact congrArg Part.went (drawBits_withInputs keys rand b _ sx 8 0 s)

theorem drawRows_withInputs (sx sy todo r : Nat) (s : State) :
    drawRows sx sy todo r (s.withInputs keys rand) = (drawRows sx sy todo r s).map (State.withInputs keys rand) := by
  induction todo generalizing r s with
  | zero => rfl
  | succ todo ih => exact andThen_map (drawRow_withInputs keys rand sx sy r s) (ih (r + 1))

/-! ## Instructions under other inputs -/

theorem skipWhen_withInputs (b : Bool) (s : State) :
    skipWhen b (s.withInputs keys rand) = mapNext (State.withInputs keys rand) (skipWhen b s) :=
  congrArg Host.Outcome.next (skipIf_withInputs keys rand b s)

theorem execCall_withInputs (nnn : Addr) (s : State) :
    execCall nnn (s.withInputs keys rand) = mapNext (State.withInputs keys rand) (execCall nnn s) := by
  have hpush := pushReturn_withInputs keys rand s.pc s
  exact finish_withInputs keys rand (andThen_map hpush fun _ => rfl) _ _

theorem execDrw_withInputs (x y n : Nibble) (s : State) :
    execDrw x y n (s.withInputs keys rand) = mapNext (State.withInputs keys rand) (execDrw x y n s) := by
  have hrows := drawRows_withInputs keys rand (startColumn (s.reg x)) (startRow (s.reg y)) n.toNat 0
    (s.setReg flagReg 0x00)
  exact finish_withInputs keys rand (andThen_map hrows fun _ => rfl) _ _

/-- The key skips read the keys, not the random byte. -/
theorem keySkip_withInputs {s : State} (hkeys : keys = s.keys) (i : Instr) (x : Nibble) (want : Bool) :
    keySkip i x want (s.withInputs keys rand) = mapNext (State.withInputs keys rand) (keySkip i x want s) := by
  subst hkeys
  refine finish_withInputs s.keys rand ?_ _ _
  rw [apply_ite (Part.map _), Part.map, Part.map, ← skipIf_withInputs]
  rfl

/-- FX0A reads the keys, not the random byte. -/
theorem execLdVxK_withInputs {s : State} (hkeys : keys = s.keys) (x : Nibble) :
    execLdVxK x (s.withInputs keys rand) = mapNext (State.withInputs keys rand) (execLdVxK x s) := by
  subst hkeys
  have hlowest : lowestKey (s.withInputs s.keys rand) = lowestKey s := rfl
  rw [execLdVxK, execLdVxK, hlowest]
  cases lowestKey s <;> rfl

/-- CXNN reads the random byte, not the keys. -/
theorem execRnd_withInputs {s : State} (hrand : rand = s.rand) (x : Nibble) (nn : Byte) :
    execRnd x nn (s.withInputs keys rand) = mapNext (State.withInputs keys rand) (execRnd x nn s) := by
  subst hrand
  rfl

/-- An instruction runs the same, whatever the inputs that its row does not name. -/
theorem exec_withInputs (i : Instr) (s : State) (hkeys : readsKeys i = false ∨ keys = s.keys)
    (hrand : readsRand i = false ∨ rand = s.rand) :
    exec i (s.withInputs keys rand) = mapNext (State.withInputs keys rand) (exec i s) :=
  match i, hkeys, hrand with
  | .cls _, _, _ | .jp _, _, _ | .jpV0 _, _, _ | .ldI _, _, _ | .addI _, _, _ | .ldF _, _, _ => rfl
  | .ldImm .., _, _ | .addImm .., _, _ | .ldReg .., _, _ | .orReg .., _, _ | .andReg .., _, _ | .xorReg .., _, _
  | .addReg .., _, _ | .subReg .., _, _ | .subnReg .., _, _ | .shr .., _, _ | .shl .., _, _ => rfl
  | .ldVxDt _, _, _ | .ldDtVx _, _, _ | .ldStVx _, _, _ => rfl
  | .ret _, _, _ => finish_withInputs keys rand (popIntoPc_withInputs keys rand s) _ _
  | .call nnn, _, _ => execCall_withInputs keys rand nnn s
  | .seImm .., _, _ | .sneImm .., _, _ | .seReg .., _, _ | .sneReg .., _, _ => skipWhen_withInputs keys rand _ s
  | .rnd x nn, _, hrand => execRnd_withInputs keys rand (hrand.resolve_left Bool.true_eq_false.mp) x nn
  | .drw x y n, _, _ => execDrw_withInputs keys rand x y n s
  | .skp x, hkeys, _ => keySkip_withInputs keys rand (hkeys.resolve_left Bool.true_eq_false.mp) (.skp x) x true
  | .sknp x, hkeys, _ => keySkip_withInputs keys rand (hkeys.resolve_left Bool.true_eq_false.mp) (.sknp x) x false
  | .ldVxK x, hkeys, _ => execLdVxK_withInputs keys rand (hkeys.resolve_left Bool.true_eq_false.mp) x
  | .ldB _, _, _ | .ldMemVx _, _, _ => finish_withInputs keys rand (storeBytes_withInputs keys rand _ _ s) _ _
  | .ldVxMem x, _, _ => finish_withInputs keys rand (loadRegs_withInputs keys rand (x.toNat + 1) 0 _ s) _ _

end

/-- Settles O56, instruction by instruction. -/
theorem inputsAreReadOnlyWhereNamed : Obligations.InputsAreReadOnlyWhereNamed :=
  fun i s keys rand hkeys hrand => exec_withInputs keys rand i s hkeys hrand

end Sys2Proof.Machine
end

section
/-! Proofs of the statements about control transfer (41_control_flow): the call stack, the jumps and the skips. What a
push and a pop come to is said once for each case of the stack, and CALL and RET are those pieces and their end. -/

namespace Sys2Proof.Machine

/-! ## The call stack (R120, R122) -/

theorem pushReturn_of_full {s : State} (hfull : s.sp = s.params.stackDepth) (a : Word) :
    pushReturn a s = .raised .stackOverflow s :=
  if_pos hfull

theorem pushReturn_of_free {s : State} (hfree : s.sp ≠ s.params.stackDepth) (hentry : s.sp < s.stack.length)
    (a : Word) :
    pushReturn a s = .went { s with stack := s.stack.set s.sp a, sp := s.sp + 1 } := by
  rw [pushReturn, if_neg hfree, if_pos hentry]

theorem popIntoPc_of_empty {s : State} (hempty : s.sp = 0) : popIntoPc s = .raised .stackUnderflow s :=
  if_pos hempty

theorem popIntoPc_of_live {s : State} {a : Word} (hlive : s.sp ≠ 0) (hentry : s.stack[s.sp - 1]? = some a) :
    popIntoPc s = .went { s with sp := s.sp - 1, pc := a } := by
  simp only [popIntoPc, if_neg hlive, hentry]

/-- CALL is a push and then a jump. -/
theorem exec_call (nnn : Addr) (s : State) :
    exec (.call nnn) s = finish (.call nnn) (s.pc - 2)
      ((pushReturn s.pc s).andThen fun t => .went (t.setPc (absoluteTarget nnn))) := rfl

/-- RET is a pop into PC. -/
theorem exec_ret (x : Nibble) (s : State) : exec (.ret x) s = finish (.ret x) (s.pc - 2) (popIntoPc s) := rfl

theorem exec_call_of_full {s : State} (hfull : s.sp = s.params.stackDepth) (nnn : Addr) :
    exec (.call nnn) s = .next (raise .stackOverflow (encode (.call nnn)) (s.pc - 2) s) := by
  rw [exec_call, pushReturn_of_full hfull, andThen_raised, finish_raised]

theorem exec_call_of_free {s : State} (hfree : s.sp ≠ s.params.stackDepth) (hentry : s.sp < s.stack.length)
    (nnn : Addr) :
    exec (.call nnn) s =
      .next { s with stack := s.stack.set s.sp s.pc, sp := s.sp + 1, pc := absoluteTarget nnn } := by
  rw [exec_call, pushReturn_of_free hfree hentry, andThen_went, finish_went, State.setPc]

theorem exec_ret_of_empty {s : State} (hempty : s.sp = 0) (x : Nibble) :
    exec (.ret x) s = .next (raise .stackUnderflow (encode (.ret x)) (s.pc - 2) s) := by
  rw [exec_ret, popIntoPc_of_empty hempty, finish_raised]

theorem exec_ret_of_live {s : State} {a : Word} (hlive : s.sp ≠ 0) (hentry : s.stack[s.sp - 1]? = some a)
    (x : Nibble) : exec (.ret x) s = .next { s with sp := s.sp - 1, pc := a } := by
  rw [exec_ret, popIntoPc_of_live hlive hentry, finish_went]

/-- Settles O13: the entry the return pops is the one the call wrote, the advanced PC. -/
theorem returnLandsAfterTheCall : Obligations.ReturnLandsAfterTheCall := by
  intro nnn x s hfree hentry
  refine ⟨_, exec_call_of_free hfree hentry nnn, fun u hstack hsp => ?_⟩
  have husp : u.sp = s.sp + 1 := hsp
  have hlive : u.sp ≠ 0 := by omega
  have hback : u.sp - 1 = s.sp := by omega
  have htop : u.stack[u.sp - 1]? = some s.pc := by
    rw [hstack, hback]
    exact List.getElem?_set_self hentry
  exact ⟨_, exec_ret_of_live hlive htop x, rfl, hback⟩

/-- Settles O11: on an empty stack the pop raises, on a live entry it takes that entry. -/
theorem retPopsTheReturnAddress : Obligations.RetPopsTheReturnAddress := by
  intro x s
  refine ⟨fun hempty => ?_, fun a hlive hentry => ?_⟩
  · exact ⟨_, exec_ret_of_empty hempty x, haltedWith_raise .stackUnderflow _ _ s,
      changesOnly_raise [] .stackUnderflow _ _ s⟩
  · exact ⟨_, exec_ret_of_live hlive.ne' hentry x, rfl, rfl, rfl, changesOnly_setStack s s.stack (s.sp - 1) a⟩

/-- Settles O12: on a full stack the push raises, otherwise it writes the entry at SP alone. -/
theorem callPushesTheAdvancedPc : Obligations.CallPushesTheAdvancedPc := by
  intro nnn s
  refine ⟨fun hfull => ?_, fun hfree hentry => ?_⟩
  · exact ⟨_, exec_call_of_full hfull nnn, haltedWith_raise .stackOverflow _ _ s,
      changesOnly_raise [] .stackOverflow _ _ s⟩
  · exact ⟨_, exec_call_of_free hfree hentry nnn, toNat_absoluteTarget nnn, rfl, List.getElem?_set_self hentry,
      fun k hk => List.getElem?_set_ne hk.symm, changesOnly_setStack s _ _ _⟩

/-! ## Jumps (R121, R127) -/

theorem exec_jp (nnn : Addr) (s : State) : exec (.jp nnn) s = .next (s.setPc (absoluteTarget nnn)) := rfl

theorem exec_jpV0 (nnn : Addr) (s : State) :
    exec (.jpV0 nnn) s = .next (s.setPc (offsetTarget nnn (s.reg 0))) := rfl

/-- Settles O14: the jump writes PC alone, and the target is `nnn` as a number. -/
theorem jumpSetsPc : Obligations.JumpSetsPc := fun nnn s =>
  ⟨_, exec_jp nnn s, toNat_absoluteTarget nnn, changesOnly_setPc [] s _⟩

/-- Settles O15: the jump writes PC alone, and the sum of 12 and 8 bits does not wrap in 16. -/
theorem offsetJumpAddsV0Exactly : Obligations.OffsetJumpAddsV0Exactly := fun nnn s =>
  ⟨_, exec_jpV0 nnn s, toNat_offsetTarget nnn (s.reg 0), changesOnly_setPc [] s _⟩

/-! ## Skips (R123 to R126, R128) -/

/-- A skip on the condition `p`: PC gains 2 where `p` holds, stays where `q` excludes `p`, and nothing else changes. -/
theorem skipWhen_spec {p q : Prop} [Decidable p] (hexcl : q → ¬p) (s : State) :
    ∃ t, skipWhen (decide p) s = .next t ∧ (p → t.pc = s.pc + 2) ∧ (q → t.pc = s.pc) ∧
      changesOnly [] [.programCounter] s t := by
  refine ⟨_, rfl, fun hp => ?_, fun hq => ?_, changesOnly_skipIf _ s⟩
  · rw [decide_eq_true hp, skipIf_true, pc_setPc]
  · rw [decide_eq_false (hexcl hq), skipIf_false]

/-- Settles O16: the two skips are on opposite conditions. -/
theorem immediateSkips : Obligations.ImmediateSkips := fun _ _ s =>
  ⟨skipWhen_spec id s, skipWhen_spec not_not_intro s⟩

/-- Settles O17: the two skips are on opposite conditions. -/
theorem registerSkips : Obligations.RegisterSkips := fun _ _ s =>
  ⟨skipWhen_spec id s, skipWhen_spec not_not_intro s⟩

end Sys2Proof.Machine
end

section
/-! Proofs of the statements about load, arithmetic, logic, shift and random (42_load_alu). What `load`, `loadThenFlag`
and `flagThenShift` do is said once each, the case x = F (R153) included; an instruction is then one of the three with
the arithmetic of its byte. -/

namespace Sys2Proof.Machine

/-! ## What the shared operations do -/

/-- A change stays within more registers than it names. -/
theorem changesOnly.mono_regs {l m : List Nibble} {ps : List Piece} {s t : State} (h : changesOnly l ps s t)
    (hlm : l ⊆ m) : changesOnly m ps s t :=
  h.imp_left fun hregs r hr => hregs r fun hl => hr (hlm hl)

theorem load_spec (x : Nibble) (r : Byte) (s : State) :
    ∃ t, load x r s = .next t ∧ t.reg x = r ∧ changesOnly [x] [] s t :=
  ⟨_, rfl, reg_setReg_self s x r, changesOnly_setReg [] s x r⟩

/-- The flag is written last: it stands for every `x`, and the result stands where `x` is not F. -/
theorem loadThenFlag_spec (x : Nibble) (r f : Byte) (s : State) :
    ∃ t, loadThenFlag x r f s = .next t ∧ (x ≠ flagReg → t.reg x = r) ∧ t.reg flagReg = f ∧
      changesOnly [x, flagReg] [] s t := by
  refine ⟨_, rfl, fun hx => ?_, reg_setReg_self _ flagReg f,
    (changesOnly_setReg [] s x r).trans (changesOnly_setReg [] _ flagReg f)⟩
  rw [reg_setReg_of_ne _ f hx.symm, reg_setReg_self]

/-- The flag is written first: where `x` is F it is the flag that is shifted. -/
theorem flagThenShift_spec (x : Nibble) (f : Byte) (g : Byte → Byte) (s : State) :
    ∃ t, flagThenShift x f g s = .next t ∧ (x ≠ flagReg → t.reg x = g (s.reg x) ∧ t.reg flagReg = f) ∧
      (x = flagReg → t.reg flagReg = g f) ∧ changesOnly [x, flagReg] [] s t := by
  refine ⟨_, rfl, fun hx => ⟨?_, ?_⟩, fun hx => ?_,
    ((changesOnly_setReg [] s flagReg f).trans (changesOnly_setReg [] _ x _)).mono_regs
      (List.Perm.swap x flagReg []).subset⟩
  · rw [reg_setReg_self, reg_setReg_of_ne s f hx.symm]
  · rw [reg_setReg_of_ne _ _ hx, reg_setReg_self]
  · rw [hx, reg_setReg_self, reg_setReg_self]

/-! ## The flags and the difference as numbers (R152) -/

theorem flagByte_of {p : Prop} [Decidable p] (hp : p) : flagByte (decide p) = 0x01 := if_pos (decide_eq_true hp)

theorem flagByte_of_not {p : Prop} [Decidable p] (hp : ¬p) : flagByte (decide p) = 0x00 := by
  rw [decide_eq_false hp]
  rfl

theorem toNat_flagByte (b : Bool) : (flagByte b).toNat = b.toNat := by cases b <;> rfl

/-- A flag halved: no bit is left. -/
theorem flagByte_ushiftRight_one (b : Bool) : flagByte b >>> 1 = 0x00 := by cases b <;> rfl

theorem toNat_lowBitFlag (a : Byte) : (lowBitFlag a).toNat = a.toNat % 2 := by
  rw [lowBitFlag, toNat_flagByte, BitVec.getLsbD, Nat.toNat_testBit, pow_zero, Nat.div_one]

/-- Bit 7 is set from 128 on. -/
theorem highBitFlag_eq (a : Byte) : highBitFlag a = flagByte (decide (128 ≤ a.toNat)) :=
  congrArg flagByte (a.msb_eq_getLsbD_last.symm.trans a.msb_eq_decide)

theorem toNat_highBitFlag (a : Byte) : (highBitFlag a).toNat = a.toNat / 128 := by
  have ha := a.isLt
  rw [highBitFlag, toNat_flagByte, BitVec.getLsbD, Nat.toNat_testBit]
  omega

/-- The difference of bytes is that of their numbers modulo 256. -/
theorem toNat_sub_byte (a b : Byte) : ((a - b).toNat : Int) = (a.toNat - b.toNat : Int) % 256 := by
  have hb := b.isLt
  rw [BitVec.toNat_sub]
  omega

/-! ## Arithmetic with a flag (R146, R147, R149) -/

/-- Settles O22: the flag is the comparison of the exact sum with 255. -/
theorem addSetsVxThenCarry : Obligations.AddSetsVxThenCarry := by
  intro x y s
  obtain ⟨t, ht, hres, hflag, hframe⟩ :=
    loadThenFlag_spec x (s.reg x + s.reg y) (carryFlag (s.reg x) (s.reg y)) s
  refine ⟨t, ht, fun hx => ?_, fun h => hflag.trans (flagByte_of h),
    fun h => hflag.trans (flagByte_of_not h.not_gt), hframe⟩
  rw [hres hx, BitVec.toNat_add]

/-- A difference and its not-borrow: SUB takes it of Vx and Vy, SUBN of Vy and Vx. -/
theorem loadThenFlag_difference (x : Nibble) (a b : Byte) (s : State) :
    ∃ t, loadThenFlag x (a - b) (notBorrowFlag a b) s = .next t ∧
      (x ≠ 0xF → ((t.reg x).toNat : Int) = (a.toNat - b.toNat : Int) % 256) ∧
      (b.toNat ≤ a.toNat → t.reg 0xF = 0x01) ∧ (a.toNat < b.toNat → t.reg 0xF = 0x00) ∧
      changesOnly [x, 0xF] [] s t := by
  obtain ⟨t, ht, hres, hflag, hframe⟩ := loadThenFlag_spec x (a - b) (notBorrowFlag a b) s
  refine ⟨t, ht, fun hx => ?_, fun h => hflag.trans (flagByte_of h),
    fun h => hflag.trans (flagByte_of_not h.not_ge), hframe⟩
  rw [hres hx, toNat_sub_byte]

/-- Settles O23: the difference is of Vx and Vy. -/
theorem subtractSetsVxThenNotBorrow : Obligations.SubtractSetsVxThenNotBorrow := fun x y s =>
  loadThenFlag_difference x (s.reg x) (s.reg y) s

/-- Settles O24: the operands of SUB change places. -/
theorem reverseSubtractSetsVxThenNotBorrow : Obligations.ReverseSubtractSetsVxThenNotBorrow := fun x y s =>
  loadThenFlag_difference x (s.reg y) (s.reg x) s

/-! ## Shifts (R148, R150, R153) -/

/-- Settles O25: where x = F the flag, 0 or 1, is halved, which leaves 0. -/
theorem shiftRightSetsFlagThenHalves : Obligations.ShiftRightSetsFlagThenHalves := by
  intro x y s
  obtain ⟨t, ht, hother, hself, hframe⟩ :=
    flagThenShift_spec x (lowBitFlag (s.reg x)) (fun b => b >>> 1) s
  refine ⟨t, ht, fun hx => ?_, fun hx => ?_, hframe⟩
  · obtain ⟨hres, hflag⟩ := hother hx
    exact ⟨by rw [hres, BitVec.toNat_ushiftRight, Nat.shiftRight_one],
      (congrArg BitVec.toNat hflag).trans (toNat_lowBitFlag _)⟩
  · exact (hself hx).trans (flagByte_ushiftRight_one _)

/-- Settles O26: where x = F the flag, 0 or 1, is doubled. -/
theorem shiftLeftSetsFlagThenDoubles : Obligations.ShiftLeftSetsFlagThenDoubles := by
  intro x y s
  obtain ⟨t, ht, hother, hself, hframe⟩ :=
    flagThenShift_spec x (highBitFlag (s.reg x)) (fun b => b <<< 1) s
  refine ⟨t, ht, fun hx => ?_, fun hx => ⟨fun h => ?_, fun h => ?_⟩, hframe⟩
  · obtain ⟨hres, hflag⟩ := hother hx
    exact ⟨by rw [hres, BitVec.toNat_shiftLeft, Nat.shiftLeft_eq, pow_one],
      (congrArg BitVec.toNat hflag).trans (toNat_highBitFlag _)⟩
  · refine (hself hx).trans ?_
    rw [highBitFlag_eq, flagByte_of h]
    rfl
  · refine (hself hx).trans ?_
    rw [highBitFlag_eq, flagByte_of_not h.not_ge]
    rfl

/-! ## Loads of one register (R140 to R145, R151) -/

/-- Settles O18: the load of `nn`. -/
theorem loadImmediateSetsVx : Obligations.LoadImmediateSetsVx := fun x nn s => load_spec x nn s

/-- Settles O20: the load of Vy. -/
theorem moveCopiesVy : Obligations.MoveCopiesVy := fun x y s => load_spec x (s.reg y) s

/-- Settles O19: addition of bytes is addition modulo 256. -/
theorem addImmediateWrapsWithoutFlag : Obligations.AddImmediateWrapsWithoutFlag := by
  intro x nn s
  obtain ⟨t, ht, hreg, hframe⟩ := load_spec x (s.reg x + nn) s
  refine ⟨t, ht, ?_, hframe⟩
  rw [hreg, BitVec.toNat_add]

/-- A load of the bytes `a` and `b` combined bit by bit by `f`. -/
theorem load_bitwise {f : Bool → Bool → Bool} {a b r : Byte}
    (hr : ∀ k, r.getLsbD k = f (a.getLsbD k) (b.getLsbD k)) (x : Nibble) (s : State) :
    ∃ t, load x r s = .next t ∧ (∀ k, (t.reg x).getLsbD k = f (a.getLsbD k) (b.getLsbD k)) ∧
      changesOnly [x] [] s t := by
  obtain ⟨t, ht, hreg, hframe⟩ := load_spec x r s
  exact ⟨t, ht, hreg ▸ hr, hframe⟩

/-- Settles O21: each is a load of a byte given bit by bit. -/
theorem logicWritesVxAlone : Obligations.LogicWritesVxAlone := fun x _ s =>
  ⟨load_bitwise (fun _ => BitVec.getLsbD_or) x s, load_bitwise (fun _ => BitVec.getLsbD_and) x s,
    load_bitwise (fun _ => BitVec.getLsbD_xor) x s⟩

/-- Settles O27: the load of RAND AND `nn`, bit by bit. -/
theorem randomByteIsMasked : Obligations.RandomByteIsMasked := fun x _ s =>
  load_bitwise (fun _ => BitVec.getLsbD_and) x s

end Sys2Proof.Machine
end

section
/-! Proofs of the statements about the index register and memory (43_index_memory). FX33 and FX55 are one store of a
list of bytes at I, and FX65 one run of loads from I. What each does as far as it comes is said once (`Stored`,
`Loaded`), and the end of the instruction adds the error record where an address is past memory (60 R260). -/

namespace Sys2Proof.Machine

/-! ## The index register (R160 to R162) -/

theorem exec_ldI (nnn : Addr) (s : State) : exec (.ldI nnn) s = .next (s.setI (absoluteTarget nnn)) := rfl

theorem exec_addI (x : Nibble) (s : State) :
    exec (.addI x) s = .next (s.setI (s.i + (s.reg x).setWidth 16)) := rfl

theorem exec_ldF (x : Nibble) (s : State) :
    exec (.ldF x) s = .next (s.setI (glyphAddress s.params (s.reg x))) := rfl

theorem toNat_add_setWidth_byte (a : Word) (b : Byte) :
    (a + b.setWidth 16).toNat = (a.toNat + b.toNat) % 65536 := by
  have hb := b.isLt
  have hwide : b.toNat < 2 ^ 16 := by omega
  rw [BitVec.toNat_add, BitVec.toNat_setWidth, Nat.mod_eq_of_lt hwide]

/-- A font inside memory keeps every glyph address within 16 bits: 4016 + 5 * 255 is below 65536 (log 12). -/
theorem toNat_glyphAddress {p : Params} (h : p.fontFits = true) (v : Byte) :
    (glyphAddress p v).toNat = p.fontBase + 5 * v.toNat := by
  have hfont := fontFits_iff.mp h
  have hv := v.isLt
  rw [glyphAddress, BitVec.toNat_ofNat, Nat.mod_eq_of_lt (by omega)]

/-- Settles O28: the target of 12 bits is the same number in 16. -/
theorem loadIndexSetsI : Obligations.LoadIndexSetsI := fun nnn s =>
  ⟨_, exec_ldI nnn s, toNat_absoluteTarget nnn, changesOnly_setI [] s _⟩

/-- Settles O29: addition of words is addition modulo 65536. -/
theorem addIndexWrapsAt65536 : Obligations.AddIndexWrapsAt65536 := fun x s =>
  ⟨_, exec_addI x s, toNat_add_setWidth_byte s.i (s.reg x), changesOnly_setI [] s _⟩

/-- Settles O30: no glyph address of a font inside memory wraps. -/
theorem fontIndexIsBasePlusFiveVx : Obligations.FontIndexIsBasePlusFiveVx := fun x s hfont =>
  ⟨_, exec_ldF x s, toNat_glyphAddress hfont (s.reg x), changesOnly_setI [] s _⟩

/-! ## The error record (60 R259) -/

/-- A raise after a change that keeps every piece changes the error record alone. -/
theorem keepsPiecesBut_raise {s t : State} (h : keepsPiecesBut [] s t) (c : Cause) (w pc0 : Word) :
    keepsPiecesBut [.errorRecord] s (raise c w pc0 t) :=
  keepsPiecesBut_trans (keepsPiecesBut_mono h (List.nil_subset _)) (changesOnly_raise [] c w pc0 t).2.1

/-! ## A store at I (R163, R164) -/

/-- `t` has the bytes `bs` at `a`, `a + 1`, ... as far as these addresses exist, and no other byte and no register of
`t` differs from `s`. -/
structure Stored (a : Nat) (bs : List Byte) (s t : State) : Prop where
  bytes : ∀ (k : Nat) (hk : k < bs.length), a + k ≤ 4095 → t.byteAt (a + k) = some bs[k]
  regs : keepsRegsBut [] s t
  outside : keepsMemoryOutside a bs.length s t

/-- The bytes before address 4096 are all that a store leaves, whether or not there are more. -/
theorem stored_setBytes_take {s : State} (hm : s.mem.wf s.params = true) (a : Nat) (bs : List Byte) :
    Stored a bs s (s.setBytes a (bs.take (4096 - a))) := by
  have hlen : (bs.take (4096 - a)).length = min (4096 - a) bs.length := List.length_take
  refine ⟨fun k hk hak => ?_, fun _ _ => rfl, fun c hc => byteAt_setBytes_outside s (by omega)⟩
  rw [byteAt_setBytes_inside hm (by omega) (by omega), List.getElem_take]

/-- An instruction that is a store in a canonical memory: it completes where the last address exists, else it raises
MemoryFault with the bytes before the first bad address written (60 R260). -/
theorem finish_storeBytes {s : State} (hm : s.mem.wf s.params = true) {bs : List Byte} (hbs : bs ≠ []) (a : Nat)
    (i : Instr) (pc0 : Word) :
    (a + bs.length ≤ 4096 → ∃ t, finish i pc0 (storeBytes a bs s) = .next t ∧ Stored a bs s t ∧
      keepsPiecesBut [] s t) ∧
    (4096 < a + bs.length → ∃ t, finish i pc0 (storeBytes a bs s) = .next t ∧ haltedWith 2 (encode i) pc0 t ∧
      Stored a bs s t ∧ keepsPiecesBut [.errorRecord] s t) := by
  have hstored := stored_setBytes_take hm a bs
  refine ⟨fun hfit => ?_, fun hfault => ?_⟩
  · rw [List.take_of_length_le (by omega)] at hstored
    rw [storeBytes_fits s hfit]
    exact ⟨_, rfl, hstored, keepsPiecesBut_setBytes [] s a bs⟩
  · rw [storeBytes_faults s hfault hbs]
    exact ⟨_, rfl, haltedWith_raise .memoryFault _ _ _, { hstored with },
      keepsPiecesBut_raise (keepsPiecesBut_setBytes [] s a _) _ _ _⟩

/-- FX33 stores the decimal digits at I. -/
theorem exec_ldB (x : Nibble) (s : State) :
    exec (.ldB x) s = finish (.ldB x) (s.pc - 2) (storeBytes s.i.toNat (decimalDigits (s.reg x)) s) := rfl

/-- FX55 stores `V0` to `Vx` at I. -/
theorem exec_ldMemVx (x : Nibble) (s : State) :
    exec (.ldMemVx x) s = finish (.ldMemVx x) (s.pc - 2) (storeBytes s.i.toNat (registersUpTo s x) s) := rfl

/-- The digits of a byte are three bytes, each with its digit as a number. -/
theorem decimalDigits_spec (v : Byte) :
    ∃ d0 d1 d2 : Byte, decimalDigits v = [d0, d1, d2] ∧
      d0.toNat = v.toNat / 100 ∧ d1.toNat = v.toNat / 10 % 10 ∧ d2.toNat = v.toNat % 10 := by
  have hv := v.isLt
  refine ⟨_, _, _, rfl, ?_, ?_, ?_⟩ <;> rw [BitVec.toNat_ofNat, Nat.mod_eq_of_lt (by omega)]

/-- Settles O31: FX33 is the store of three digits. -/
theorem decimalDigitsAreStored : Obligations.DecimalDigitsAreStored := by
  intro x s hm
  obtain ⟨d0, d1, d2, hdigits, h0, h1, h2⟩ := decimalDigits_spec (s.reg x)
  obtain ⟨hfits, hfaults⟩ := finish_storeBytes hm (List.cons_ne_nil d0 [d1, d2]) s.i.toNat (.ldB x) (s.pc - 2)
  rw [exec_ldB, hdigits]
  refine ⟨fun hi => ?_, fun hi => ?_⟩
  · obtain ⟨t, ht, hstored, hpieces⟩ := hfits (Nat.succ_le_succ hi)
    exact ⟨t, d0, d1, d2, ht, hstored.bytes 0 (by simp) (by omega), hstored.bytes 1 (by simp) (by omega),
      hstored.bytes 2 (by simp) hi, h0, h1, h2, hstored.regs, hpieces, hstored.outside⟩
  · obtain ⟨t, ht, hhalt, hstored, hpieces⟩ := hfaults (Nat.succ_lt_succ hi)
    exact ⟨t, ht, hhalt, fun hb => ⟨d0, hstored.bytes 0 (by simp) hb, h0⟩,
      fun hb => ⟨d1, hstored.bytes 1 (by simp) hb, h1⟩, hstored.regs, hpieces, hstored.outside⟩

/-- Where `V0` to `Vx` are stored, `Vk` is the byte `k` places on. -/
theorem Stored.byteAt_reg {a : Nat} {x : Nibble} {s t : State} (h : Stored a (registersUpTo s x) s t) {k : Nibble}
    (hk : k.toNat ≤ x.toNat) (hak : a + k.toNat ≤ 4095) : t.byteAt (a + k.toNat) = some (s.reg k) := by
  have hlen : k.toNat < (registersUpTo s x).length := by
    rw [length_registersUpTo]
    omega
  rw [h.bytes k.toNat hlen hak, getElem_registersUpTo]

/-- Settles O32: FX55 is the store of `x + 1` registers. -/
theorem registersAreStored : Obligations.RegistersAreStored := by
  intro x s hm
  have hlen := length_registersUpTo s x
  obtain ⟨hfits, hfaults⟩ :=
    finish_storeBytes hm (List.ne_nil_of_length_eq_add_one hlen) s.i.toNat (.ldMemVx x) (s.pc - 2)
  rw [exec_ldMemVx]
  refine ⟨fun hi => ?_, fun hi => ?_⟩
  · obtain ⟨t, ht, hstored, hpieces⟩ := hfits (by omega)
    exact ⟨t, ht, fun k hk => hstored.byteAt_reg hk (by omega), hstored.regs, hpieces, hlen ▸ hstored.outside⟩
  · obtain ⟨t, ht, hhalt, hstored, hpieces⟩ := hfaults (by omega)
    exact ⟨t, ht, hhalt, fun k => hstored.byteAt_reg, hstored.regs, hpieces, hlen ▸ hstored.outside⟩

/-! ## A load from I (R165) -/

/-- FX65 loads `V0` to `Vx` from I. -/
theorem exec_ldVxMem (x : Nibble) (s : State) :
    exec (.ldVxMem x) s = finish (.ldVxMem x) (s.pc - 2) (loadRegs (x.toNat + 1) 0 s.i.toNat s) := rfl

/-- `t` has in `V0` to `Vx` the bytes of `s` at `a`, `a + 1`, ... as far as these addresses exist, and no other register
and no byte of `t` differs from `s`. -/
structure Loaded (a : Nat) (x : Nibble) (s t : State) : Prop where
  loaded : ∀ k : Nibble, k.toNat ≤ x.toNat → a + k.toNat ≤ 4095 → s.byteAt (a + k.toNat) = some (t.reg k)
  kept : ∀ k : Nibble, 4095 < a + k.toNat ∨ x.toNat < k.toNat → t.reg k = s.reg k
  memory : keepsMemory s t

/-- The loads of `V0` to `Vx` all go on where the last address exists, else they end in MemoryFault with the registers
before the first bad address loaded (60 R260). -/
theorem loadRegs_loaded (a : Nat) (x : Nibble) (s : State) :
    ∃ t, Loaded a x s t ∧ keepsPiecesBut [] s t ∧
      loadRegs (x.toNat + 1) 0 a s = if a + x.toNat ≤ 4095 then .went t else .raised .memoryFault t := by
  have hx := x.isLt
  obtain ⟨t, honly, hread, he⟩ := loadRegs_spec (x.toNat + 1) 0 a s (by omega)
  have hbound : a + (x.toNat + 1) ≤ 4096 ∨ x.toNat + 1 = 0 ↔ a + x.toNat ≤ 4095 := by omega
  refine ⟨t, ⟨fun k hk hak => ?_, fun k hk => ?_, byteAt_onlyRegs honly⟩, keepsPiecesBut_onlyRegs honly, ?_⟩
  · refine byteAt_eq_some.mpr ⟨hak, ?_⟩
    rw [hread k, if_pos (by omega), Nat.sub_zero]
  · rw [hread k, if_neg (by omega)]
  · rw [he, if_congr hbound rfl rfl]

/-- Settles O33: FX65 is the loads of `V0` to `Vx` and their end. -/
theorem registersAreLoaded : Obligations.RegistersAreLoaded := by
  intro x s
  obtain ⟨t, ⟨hloaded, hkept, hmem⟩, hpieces, he⟩ := loadRegs_loaded s.i.toNat x s
  rw [exec_ldVxMem, he]
  refine ⟨fun hi => ?_, fun hi => ?_⟩
  · rw [if_pos hi, finish_went]
    exact ⟨t, rfl, fun k hk => hloaded k hk (by omega), fun k hk => hkept k (.inr hk), hpieces, hmem⟩
  · rw [if_neg hi.not_ge, finish_raised]
    exact ⟨_, rfl, haltedWith_raise .memoryFault _ _ t, hloaded, hkept, keepsPiecesBut_raise hpieces _ _ _, hmem⟩

/-- Settles O34: the byte the load of `Vk` reads is the byte the store of `Vk` left. -/
theorem storeThenLoadRestoresTheRegisters : Obligations.StoreThenLoadRestoresTheRegisters := by
  intro x s hm hi
  obtain ⟨t, ht, hstored, -, hpieces, -⟩ := (registersAreStored x s hm).1 hi
  refine ⟨t, ht, fun u humem hparams hui => ?_⟩
  have hindex : u.i = s.i := hui.trans (hpieces .index List.not_mem_nil)
  obtain ⟨v, hv, hloaded, -⟩ := (registersAreLoaded x u).1 (hindex ▸ hi)
  refine ⟨v, hv, fun k hk => Option.some.inj ?_⟩
  calc some (v.reg k) = u.byteAt (u.i.toNat + k.toNat) := (hloaded k hk).symm
    _ = t.byteAt (s.i.toNat + k.toNat) := by rw [hindex, byteAt_congr humem hparams]
    _ = some (s.reg k) := hstored k hk

end Sys2Proof.Machine
end

section
/-! Proofs of the statements about the framebuffer (44_display). DRW is one run of sprite rows after VF is cleared: what
the rows drawn leave in FB and VF is said once (`Drawn`), and the end of the instruction adds DIRTY, or the error record
where a row is past memory (60 R260). -/

namespace Sys2Proof.Machine

/-! ## CLS (R180) -/

/-- CLS blanks FB and sets DIRTY, whatever x is. -/
theorem exec_cls (x : Nibble) (s : State) : exec (.cls x) s = .next { s with fb := blankScreen, dirty := true } := rfl

/-- Settles O36: no pixel of the blank screen is lit. -/
theorem clearScreenTurnsEveryPixelOff : Obligations.ClearScreenTurnsEveryPixelOff := fun x s =>
  ⟨_, exec_cls x s, fun row col _ _ => pixelAt_blankScreen row col, rfl, changesOnly_setScreen s blankScreen true⟩

/-! ## Sprite rows (R181 to R184) -/

/-- `t` has the first `n` rows of the sprite at I of `s`, drawn from `(sx, sy)`, XORed into the pixels of `s`, and in VF
whether they met a lit pixel. -/
structure Drawn (sx sy n : Nat) (s t : State) : Prop where
  pixels : ∀ row col, row < 32 → col < 64 →
    pixelAt t.fb row col = (pixelAt s.fb row col ^^ spriteBit s sx sy n row col)
  collision : spriteCollides s sx sy n → t.reg 0xF = 0x01
  noCollision : ¬spriteCollides s sx sy n → t.reg 0xF = 0x00

theorem Drawn.flag_eq_one_iff {sx sy n : Nat} {s t : State} (h : Drawn sx sy n s t) :
    t.reg 0xF = 0x01 ↔ spriteCollides s sx sy n := by
  refine ⟨fun hone => ?_, h.collision⟩
  by_contra hno
  have hzero := h.noCollision hno
  rw [hone] at hzero
  exact absurd hzero (by decide)

/-- With VF cleared first, the XOR of the sprite's first rows leaves their collision in VF (R182 (d), R184). -/
theorem drawn_of_xors {sx sy n : Nat} {s t : State}
    (h : Xors (spriteBits (s.setReg flagReg 0x00) sx sy 0 n) (s.setReg flagReg 0x00) t) : Drawn sx sy n s t := by
  obtain ⟨-, hpixels, hflag⟩ := h.congr (C := spriteBit s sx sy n) fun row col _ _ => by
    rw [spriteBit_eq, spriteBits_congr (onlyDraws_setFlag s 0x00)]
  rw [reg_setReg_self] at hflag
  refine ⟨hpixels, fun hmeets => ?_, fun hmeets => ?_⟩
  · obtain ⟨hone, -⟩ | ⟨-, hno⟩ := hflag
    · exact hone
    · exact absurd hmeets hno
  · obtain ⟨-, hsome⟩ | ⟨hzero, -⟩ := hflag
    · exact absurd hsome hmeets
    · exact hzero

/-- The rows of DRW: those before address 4096 are drawn, and where there are more they end in MemoryFault (R181). -/
theorem drawRows_drawn (vx vy : Byte) (n : Nibble) (s : State) :
    ∃ t, Drawn (startColumn vx) (startRow vy) (min n.toNat (4096 - s.i.toNat)) s t ∧
      changesOnly [0xF] [.screen] s t ∧
      drawRows (startColumn vx) (startRow vy) n.toNat 0 (s.setReg flagReg 0x00) =
        if s.i.toNat + n.toNat ≤ 4096 ∨ n.toNat = 0 then .went t else .raised .memoryFault t := by
  have hn : 0 + n.toNat ≤ 16 := (Nat.zero_add _).trans_le n.isLt.le
  have hcol : startColumn vx < 64 := Nat.mod_lt _ (by decide)
  have hrow : startRow vy < 32 := Nat.mod_lt _ (by decide)
  obtain ⟨t, hxors, he⟩ := drawRows_spec hcol hrow n.toNat 0 hn (s.setReg flagReg 0x00)
  rw [i_setReg, Nat.add_zero, Nat.zero_add] at hxors
  exact ⟨t, drawn_of_xors hxors, changesOnly_onlyDraws (onlyDraws_trans (onlyDraws_setFlag s 0x00) hxors.draws), he⟩

/-- DRW reads its coordinates, clears VF, draws the rows and sets DIRTY. -/
theorem exec_drw (x y n : Nibble) (s : State) :
    exec (.drw x y n) s = finish (.drw x y n) (s.pc - 2)
      ((drawRows (startColumn (s.reg x)) (startRow (s.reg y)) n.toNat 0 (s.setReg flagReg 0x00)).andThen
        fun t => .went { t with dirty := true }) := rfl

theorem changesOnly_setDirty (s : State) (d : Bool) : changesOnly [] [.dirtyFlag] s { s with dirty := d } := by
  refine ⟨fun _ _ => rfl, fun p hp => ?_, fun _ => rfl⟩
  cases p <;> simp_all [Piece.same]

/-! ## DRW where every row can be read -/

/-- DRW where no row lies past memory: every row is drawn and DIRTY is set. -/
theorem exec_drw_of_fits {n : Nibble} {s : State} (hfits : n = 0 ∨ s.i.toNat + n.toNat ≤ 4096) (x y : Nibble) :
    ∃ t, exec (.drw x y n) s = .next t ∧ Drawn (startColumn (s.reg x)) (startRow (s.reg y)) n.toNat s t ∧
      t.dirty = true ∧ changesOnly [0xF] [.screen, .dirtyFlag] s t := by
  obtain ⟨t, hdrawn, hframe, he⟩ := drawRows_drawn (s.reg x) (s.reg y) n s
  have hread : s.i.toNat + n.toNat ≤ 4096 ∨ n.toNat = 0 := hfits.symm.imp_right (congrArg BitVec.toNat)
  have hall : min n.toNat (4096 - s.i.toNat) = n.toNat := by omega
  rw [exec_drw, he, if_pos hread]
  rw [hall] at hdrawn
  exact ⟨_, rfl, { hdrawn with }, rfl, hframe.trans (changesOnly_setDirty t true)⟩

/-- Settles O37: what the drawn rows leave in FB. -/
theorem drawXorsTheSprite : Obligations.DrawXorsTheSprite := by
  intro x y n s hfits
  obtain ⟨t, ht, hdrawn, hdirty, hframe⟩ := exec_drw_of_fits hfits x y
  exact ⟨t, ht, hdrawn.pixels, hdirty, hframe⟩

/-- Settles O38: what the drawn rows leave in VF. -/
theorem drawReportsCollision : Obligations.DrawReportsCollision := by
  intro x y n s hfits
  obtain ⟨t, ht, hdrawn, -⟩ := exec_drw_of_fits hfits x y
  exact ⟨t, ht, hdrawn.collision, hdrawn.noCollision⟩

/-! ## DRW past memory (60 R260) -/

/-- Settles O39: the rows drawn are those before address 4096, and the raise adds the error record. -/
theorem drawFaultKeepsTheRowsDrawn : Obligations.DrawFaultKeepsTheRowsDrawn := by
  intro x y n s hn hpast
  obtain ⟨t, hdrawn, hframe, he⟩ := drawRows_drawn (s.reg x) (s.reg y) n s
  have hfault : ¬(s.i.toNat + n.toNat ≤ 4096 ∨ n.toNat = 0) :=
    not_or.mpr ⟨hpast.not_ge, fun h => hn (BitVec.eq_of_toNat_eq h)⟩
  have hsome : min n.toNat (4096 - s.i.toNat) = 4096 - s.i.toNat := by omega
  rw [exec_drw, he, if_neg hfault]
  rw [hsome] at hdrawn
  exact ⟨_, rfl, haltedWith_raise .memoryFault _ _ t, hdrawn.pixels, hdrawn.collision, hdrawn.noCollision,
    hframe.trans (changesOnly_raise [] .memoryFault _ _ t)⟩

/-! ## Drawing twice (R185) -/

/-- The sprite is what memory holds at I, and where it lands is up to the parameters. -/
theorem spriteBit_congr {s u : State} (hi : u.i = s.i) (hmem : u.mem = s.mem) (hparams : u.params = s.params)
    (sx sy n row col : Nat) : spriteBit u sx sy n row col = spriteBit s sx sy n row col := by
  simp only [spriteBit, hi, hparams, byteAt_congr hmem hparams]

/-- Settles O40: XOR with the same bits twice is the identity, and the pixels of the sprite lit after the first draw are
those that were off before it. -/
theorem drawingTwiceRestoresTheScreen : Obligations.DrawingTwiceRestoresTheScreen := by
  intro x y n s hfits
  obtain ⟨t, ht, htdrawn, -⟩ := exec_drw_of_fits hfits x y
  refine ⟨t, ht, fun u hfb hi hmem hparams hx hy => ?_⟩
  obtain ⟨v, hv, hvdrawn, -⟩ := exec_drw_of_fits (n := n) (s := u) (hi ▸ hfits) x y
  rw [hx, hy] at hvdrawn
  have hbit := spriteBit_congr hi hmem hparams (startColumn (s.reg x)) (startRow (s.reg y)) n.toNat
  have hlit := hfb ▸ htdrawn.pixels
  refine ⟨v, hv, screen_ext fun row col hr hc => ?_, hvdrawn.flag_eq_one_iff.trans ?_⟩
  · rw [hvdrawn.pixels row col hr hc, hlit row col hr hc, hbit, Bool.xor_assoc, Bool.xor_self, Bool.xor_false]
  · refine exists₂_congr fun row col => and_congr_right fun hr => and_congr_right fun hc => ?_
    rw [hbit]
    refine and_congr_right fun hset => ?_
    rw [hlit row col hr hc, hset, Bool.xor_true, Bool.not_eq_true']

end Sys2Proof.Machine
end

section
/-! Proofs of the statements about the keypad and the timers (45_keypad_timers). SKP and SKNP are `keySkip` with the two
wants, and the wait for a key is `lowestKey` with its two answers. -/

namespace Sys2Proof.Machine

/-! ## Wait for a key (R203) -/

theorem exec_ldVxK_of_none {s : State} (hnone : lowestKey s = none) (x : Nibble) :
    exec (.ldVxK x) s = .next (s.setPc (s.pc - 2)) := by
  rw [exec, execLdVxK, hnone]

theorem exec_ldVxK_of_some {s : State} {k : Nat} (hkey : lowestKey s = some k) (x : Nibble) :
    exec (.ldVxK x) s = .next (s.setReg x (BitVec.ofNat 8 k)) := by
  rw [exec, execLdVxK, hkey]

/-- Settles O42: with no key down the lowest key is none, and the least key down is the lowest, a number below 16 that
a byte holds. -/
theorem waitForKeyTakesTheLeastKey : Obligations.WaitForKeyTakesTheLeastKey := by
  intro x s
  refine ⟨fun hnone => ?_, fun k hk hdown hleast => ?_⟩
  · exact ⟨_, exec_ldVxK_of_none (lowestKey_none.mpr hnone) x, pc_setPc _ _, changesOnly_setPc [] s _⟩
  · refine ⟨_, exec_ldVxK_of_some (lowestKey_some.mpr ⟨hk, hdown, hleast⟩) x, ?_, changesOnly_setReg [] s x _⟩
    rw [reg_setReg_self, BitVec.toNat_ofNat, Nat.mod_eq_of_lt (by omega)]

/-! ## Key skips (R200, R201, R206) -/

section
variable {x : Nibble} {s : State}

/-- No key has an index above 15: the skip is the raise (R206). -/
theorem keySkip_of_no_key (hindex : 15 < (s.reg x).toNat) (i : Instr) (want : Bool) :
    keySkip i x want s = .next (raise .keyIndexFault (encode i) (s.pc - 2) s) := by
  rw [keySkip, if_pos hindex, finish_raised, instructionAddress]

/-- At a key's index it is a skip on what the key reads. -/
theorem keySkip_of_key (hindex : (s.reg x).toNat ≤ 15) (i : Instr) (want : Bool) :
    keySkip i x want s = skipWhen (decide (s.keys.getLsbD (s.reg x).toNat = want)) s := by
  rw [keySkip, if_neg hindex.not_gt, finish_went]
  rfl

theorem keySkip_faults (hindex : 15 < (s.reg x).toNat) (i : Instr) (want : Bool) :
    ∃ t, keySkip i x want s = .next t ∧ haltedWith 5 (encode i) (s.pc - 2) t ∧ changesOnly [] [.errorRecord] s t :=
  ⟨_, keySkip_of_no_key hindex i want, haltedWith_raise .keyIndexFault _ _ s,
    changesOnly_raise [] .keyIndexFault _ _ s⟩

/-- `other` is the reading on which the skip does not skip. -/
theorem keySkip_skips (hindex : (s.reg x).toNat ≤ 15) (i : Instr) {want other : Bool} (hother : other ≠ want) :
    ∃ t, keySkip i x want s = .next t ∧ (s.keys.getLsbD (s.reg x).toNat = want → t.pc = s.pc + 2) ∧
      (s.keys.getLsbD (s.reg x).toNat = other → t.pc = s.pc) ∧ changesOnly [] [.programCounter] s t := by
  rw [keySkip_of_key hindex]
  exact skipWhen_spec (fun hreads hwant => hother (hreads.symm.trans hwant)) s

end

/-- Settles O41: SKP wants the key down and SKNP wants it up. -/
theorem keySkips : Obligations.KeySkips := by
  intro x s
  refine ⟨fun hindex => ?_, fun hindex => ?_⟩
  · exact ⟨keySkip_faults hindex (.skp x) true, keySkip_faults hindex (.sknp x) false⟩
  · exact ⟨keySkip_skips hindex (.skp x) Bool.false_ne_true, keySkip_skips hindex (.sknp x) Bool.false_ne_true.symm⟩

/-! ## Timers (R202, R204, R205) -/

theorem exec_ldVxDt (x : Nibble) (s : State) : exec (.ldVxDt x) s = .next (s.setReg x s.dt) := rfl

theorem exec_ldDtVx (x : Nibble) (s : State) : exec (.ldDtVx x) s = .next { s with dt := s.reg x } := rfl

theorem exec_ldStVx (x : Nibble) (s : State) : exec (.ldStVx x) s = .next { s with st := s.reg x } := rfl

/-- Settles O43: each is one write, of a register or of a timer. -/
theorem timerLoadsAndReads : Obligations.TimerLoadsAndReads := fun x s =>
  ⟨⟨_, exec_ldVxDt x s, reg_setReg_self s x s.dt, changesOnly_setReg [] s x s.dt⟩,
    ⟨_, exec_ldDtVx x s, rfl, changesOnly_setDt s (s.reg x)⟩,
    ⟨_, exec_ldStVx x s, rfl, changesOnly_setSt s (s.reg x)⟩⟩

end Sys2Proof.Machine
end

section
/-! Proofs of the statements about the scheduler and the host's loop (46_scheduler_and_host_loop). What a step is when
the host's next event is a poll the core can take is said once, with each clock's firing as `due`, and the statements
about polls are read off it. -/

namespace Sys2Proof.Machine

/-! ## The activities of an iteration in a running core (R222 to R224) -/

theorem decrementTimers_of_running {s : State} (hrun : s.halted = false) :
    decrementTimers s = { s with dt := countDown s.dt, st := countDown s.st } := by
  simp [decrementTimers, hrun]

theorem refresh_of_running {s : State} (hrun : s.halted = false) :
    refresh s = { s with fbOut := s.fb, dirtyOut := s.dirty, dirty := false } := by
  simp [refresh, hrun]

theorem afterTick_of_halted {s : State} (hhalted : s.halted = true) (f : Fired) : afterTick f s = s :=
  if_pos hhalted

/-- The refresh that is due comes after the decrement that is due. -/
theorem afterTick_of_running {s : State} (hrun : s.halted = false) (f : Fired) :
    afterTick f s = if f.display then refresh (if f.timer then decrementTimers s else s)
      else if f.timer then decrementTimers s else s := by
  simp [afterTick, hrun]

theorem changesOnly_refresh {s : State} (hrun : s.halted = false) :
    changesOnly [] [.dirtyFlag, .displayPort] s (refresh s) := by
  rw [refresh_of_running hrun]
  refine ⟨fun _ _ => rfl, fun p hp => ?_, fun _ => rfl⟩
  cases p <;> simp_all [Piece.same]

/-- Settles O49: the refresh of a running core copies FB and DIRTY to the display port and clears DIRTY. -/
theorem refreshPresentsThenClearsDirty : Obligations.RefreshPresentsThenClearsDirty := by
  intro s hrun
  refine ⟨?_, ?_, ?_, changesOnly_refresh hrun⟩ <;> rw [refresh_of_running hrun]

/-! ## Timer firings (R223) -/

theorem toNat_countDown (t : Byte) : (countDown t).toNat = t.toNat - 1 := by
  unfold countDown
  split <;> bv_omega

/-- A change stays within more pieces than it names. -/
theorem changesOnly.mono_pieces {l : List Nibble} {ps qs : List Piece} {s t : State} (h : changesOnly l ps s t)
    (hsub : ps ⊆ qs) : changesOnly l qs s t :=
  let ⟨hregs, hpieces, hmem⟩ := h
  ⟨hregs, keepsPiecesBut_mono hpieces fun _ hp => hsub hp, hmem⟩

theorem changesOnly_decrementTimers {s : State} (hrun : s.halted = false) :
    changesOnly [] [.delayTimer, .soundTimer] s (decrementTimers s) := by
  rw [decrementTimers_of_running hrun]
  exact (changesOnly_setDt s _).trans (changesOnly_setSt { s with dt := countDown s.dt } _)

/-- Settles O48, by induction on the number of firings: each takes 1 from both timers, floored at 0, and leaves the core
running for the next. -/
theorem timerFiringsCountDownToZero : Obligations.TimerFiringsCountDownToZero := by
  intro firings
  induction firings with
  | zero => exact fun s _ => ⟨rfl, rfl, changesOnly_refl _ _ s⟩
  | succ n ih =>
    intro s hrun
    have hdec := decrementTimers_of_running hrun
    obtain ⟨hdt, hst, hrest⟩ := ih (decrementTimers s) (by rw [hdec]; exact hrun)
    have hdt1 : (decrementTimers s).dt.toNat = s.dt.toNat - 1 := by rw [hdec]; exact toNat_countDown s.dt
    have hst1 : (decrementTimers s).st.toNat = s.st.toNat - 1 := by rw [hdec]; exact toNat_countDown s.st
    rw [Nat.iterate]
    refine ⟨by omega, by omega, ?_⟩
    exact ((changesOnly_decrementTimers hrun).trans hrest).mono_pieces (by simp)

/-! ## Polls (R221, R222, R227) -/

/-- Where the host's next event is a poll, the step is that PollStep. -/
theorem step_of_poll {s : State} {p : PollInput} {rest : List HostEvent} (h : s.host = .poll p :: rest) :
    step s = pollStep p { s with host := rest } := by
  unfold step hostStep
  rw [h]

theorem pollStep_of_inOrder {s : State} {p : PollInput} (hrun : s.halted = false) (htime : timeInOrder p.now s = true) :
    pollStep p s = mapNext (afterTick (firedAt p.now s))
      (if (firedAt p.now s).cpu then tick (sample p s) else .next (sample p s)) := by
  simp [pollStep, hrun, htime]

theorem pollStep_of_not_inOrder {s : State} {p : PollInput} (hrun : s.halted = false)
    (htime : ¬timeInOrder p.now s = true) : pollStep p s = .refused .timeWentBack := by
  simp [pollStep, hrun, htime]

theorem fires_eq_decide {now last : Micros} (h : last.toNat ≤ now.toNat) (freq : Nat) :
    fires now last freq = decide (due now last freq) :=
  Bool.eq_iff_iff.mpr ((fires_iff h).trans decide_eq_true_iff.symm)

section
variable {p : PollInput} {rest : List HostEvent} {s : State}

/-- At a poll the core can take, the clocks that fire are those that are due. -/
theorem firedAt_of_pending (h : pollPending p rest s) :
    firedAt p.now s = ⟨decide (due p.now s.last.cpu s.params.cpuHz), decide (due p.now s.last.timer 60),
      decide (due p.now s.last.display 60)⟩ := by
  obtain ⟨-, -, -, hcpu, htimer, hdisplay⟩ := h
  rw [firedAt, fires_eq_decide hcpu, fires_eq_decide htimer, fires_eq_decide hdisplay, fixedHz]

/-- The step at a poll the core can take: the sample, the Tick if it is due, and the activities after it. -/
theorem step_of_pending (h : pollPending p rest s) :
    step s = mapNext (afterTick (firedAt p.now s))
      (if due p.now s.last.cpu s.params.cpuHz then tick (sample p { s with host := rest })
        else .next (sample p { s with host := rest })) := by
  obtain ⟨hhost, hrun, hhostTime, hcpu, hlater⟩ := h
  have htime : timeInOrder p.now s = true := timeInOrder_iff.mpr ⟨hhostTime, hcpu, hlater⟩
  rw [step_of_poll hhost, pollStep_of_inOrder (s := { s with host := rest }) hrun htime]
  exact congrArg (mapNext _) (if_congr (fires_iff hcpu) rfl rfl)

end

theorem tick_of_decoded {s : State} {w : Word} {i : Instr} (hrun : s.halted = false)
    (hword : s.wordAt s.pc.toNat = some w) (hdecode : decodeWord w = .ok i) :
    tick s = exec i (s.setPc (s.pc + 2)) := by
  simp [tick, hrun, hword, decodeAndExec, hdecode]

/-- Settles O6: the Tick is due, and the sample it runs from has the PC and the memory of the state polled. -/
theorem stepRunsTheDecodedInstruction : Obligations.StepRunsTheDecodedInstruction := by
  intro s p rest w i h hdue hword hdecode
  have hrun : s.halted = false := h.2.1
  rw [step_of_pending h, if_pos hdue, tick_of_decoded (s := sample p { s with host := rest }) hrun hword hdecode]
  rfl

/-- Settles O46: the iteration is the Tick, if due, and then `afterTick` of the clocks that are due. -/
theorem iterationRunsInOrder : Obligations.IterationRunsInOrder := by
  intro s a p rest h hticked
  have hstep : step s = .next (afterTick (firedAt p.now s) a) := by
    rw [step_of_pending h]
    split at hticked
    · next hdue => rw [if_pos hdue, hticked, mapNext]
    · next hdue => rw [if_neg hdue, hticked, mapNext]
  rw [hstep]
  refine ⟨fun hhalted => by rw [afterTick_of_halted hhalted], fun hrun => ?_⟩
  refine ⟨if due p.now s.last.timer 60 then decrementTimers a else a, _, by split <;> rfl, ?_,
    congrArg _ (afterTick_of_running hrun _)⟩
  rw [firedAt_of_pending h]
  simp only [decide_eq_true_iff]
  split <;> rfl

/-- Settles O51: a time before any of the four is not in order. -/
theorem pollWithADecreasingTimeIsRefused : Obligations.PollWithADecreasingTimeIsRefused := by
  intro s p rest hhost hrun hbefore
  have hnot : ¬timeInOrder p.now s = true := by
    rw [timeInOrder_iff]
    omega
  rw [step_of_poll hhost]
  exact pollStep_of_not_inOrder hrun hnot

/-! ## What a poll keeps of the sample (R221, R227) -/

/-- A Tick keeps a piece that neither an instruction nor the fetch writes. -/
theorem tick_keeps_piece {q : Piece} (hexec : ∀ i, mayWritePiece i q = false)
    (hfetch : q ∉ [.programCounter, .errorRecord]) (s : State) : nextHolds (q.same s) (tick s) := by
  simp only [List.mem_cons, List.not_mem_nil, or_false, not_or] at hfetch
  obtain ⟨hpc, herr⟩ := hfetch
  have hadvance : q.same s (s.setPc (s.pc + 2)) := (changesOnly_setPc [] s _).2.1 q (by simpa using hpc)
  have hraise (c : Cause) (w pc0 : Word) (t : State) : q.same t (raise c w pc0 t) :=
    (changesOnly_raise [] c w pc0 t).2.1 q (by simpa using herr)
  obtain ⟨-, he⟩ | ⟨-, -, he⟩ | ⟨w, r, -, -, -, -, he⟩ | ⟨w, i, -, -, -, -, he⟩ := tick_cases s <;> rw [he]
  · exact nextHolds_next (keepsPiecesBut_refl [] s q List.not_mem_nil)
  · exact nextHolds_next (hraise _ _ _ s)
  · exact nextHolds_next (Piece.same_trans hadvance (hraise _ _ _ _))
  · exact fun t ht => Piece.same_trans hadvance ((exec_writesAsNamed i _ t ht).1 q (hexec i))

/-- After the sample a poll writes none of the clocks and inputs, whatever instruction it runs. -/
theorem step_of_pending_keeps {p : PollInput} {rest : List HostEvent} {s : State} (h : pollPending p rest s) {q : Piece}
    (hq : q = .clocks ∨ q = .inputs) : nextHolds (q.same (sample p { s with host := rest })) (step s) := by
  have hexec (i : Instr) : mayWritePiece i q = false := by obtain rfl | rfl := hq <;> cases i <;> rfl
  have hfetch : q ∉ [.programCounter, .errorRecord] := by obtain rfl | rfl := hq <;> decide
  have hafter : q ∉ [.delayTimer, .soundTimer, .dirtyFlag, .displayPort] := by obtain rfl | rfl := hq <;> decide
  rw [step_of_pending h]
  refine nextHolds_mapNext ?_ fun t ht => Piece.same_trans ht ((afterTick_spec _ t).2.2 q hafter)
  split
  · exact tick_keeps_piece hexec hfetch _
  · exact nextHolds_next (keepsPiecesBut_refl [] _ q List.not_mem_nil)

theorem stamp_spec (c : Prop) [Decidable c] (now last : Micros) :
    (c → (if decide c then now else last) = now) ∧ (¬c → (if decide c then now else last) = last) :=
  ⟨fun hc => if_pos (decide_eq_true hc), fun hc => if_neg (by simpa using hc)⟩

/-- Settles O44: the poll keeps the clocks and the time of the sample, which restamps the clocks that are due. -/
theorem pollRestampsTheDueClocks : Obligations.PollRestampsTheDueClocks := by
  intro s t p rest h ht
  have hlast : t.last = restamp p.now (firedAt p.now s) s.last := step_of_pending_keeps h (.inl rfl) t ht
  obtain ⟨-, -, htime, -⟩ := step_of_pending_keeps h (.inr rfl) t ht
  rw [hlast, firedAt_of_pending h]
  obtain ⟨hcpu, hcpuKept⟩ := stamp_spec (due p.now s.last.cpu s.params.cpuHz) p.now s.last.cpu
  obtain ⟨htimer, htimerKept⟩ := stamp_spec (due p.now s.last.timer 60) p.now s.last.timer
  obtain ⟨hdisplay, hdisplayKept⟩ := stamp_spec (due p.now s.last.display 60) p.now s.last.display
  exact ⟨hcpu, hcpuKept, htimer, htimerKept, hdisplay, hdisplayKept, htime⟩

/-! ## Every poll completes (10_state R36 (a)) -/

/-- A piece of an instruction came to a state of the machine, gone on or raised. -/
def Part.Completes : Part → Prop
  | .went _ | .raised _ _ => True
  | .broken _ => False

theorem Part.Completes.andThen {p : Part} {f : State → Part} (h : p.Completes) (hf : ∀ t, (f t).Completes) :
    (p.andThen f).Completes := by
  cases p with
  | went t => exact hf t
  | raised c t => trivial
  | broken r => exact h

theorem Part.Completes.finish {p : Part} (h : p.Completes) (i : Instr) (a : Word) : ∃ t, finish i a p = .next t := by
  cases p with
  | went t => exact ⟨t, rfl⟩
  | raised c t => exact ⟨_, rfl⟩
  | broken r => exact h.elim

theorem storeBytes_completes (a : Nat) (bs : List Byte) (s : State) : (storeBytes a bs s).Completes := by
  rw [storeBytes_eq]
  split <;> trivial

theorem loadRegs_completes (a : Nat) (x : Nibble) (s : State) : (loadRegs (x.toNat + 1) 0 a s).Completes := by
  have hx := x.isLt
  obtain ⟨t, -, -, he⟩ := loadRegs_spec (x.toNat + 1) 0 a s (by omega)
  rw [he]
  split <;> trivial

theorem drawRows_completes (sx sy todo r : Nat) (s : State) : (drawRows sx sy todo r s).Completes := by
  induction todo generalizing r s with
  | zero => trivial
  | succ todo ih =>
    refine Part.Completes.andThen ?_ fun t => ih (r + 1) t
    unfold drawRow
    split <;> trivial

theorem keySkip_completes (i : Instr) (x : Nibble) (want : Bool) (s : State) : ∃ t, keySkip i x want s = .next t :=
  Part.Completes.finish (by split <;> trivial) i _

theorem execDrw_completes (x y n : Nibble) (s : State) : ∃ t, execDrw x y n s = .next t := by
  refine Part.Completes.finish ((drawRows_completes _ _ n.toNat 0 _).andThen fun t => ?_) (.drw x y n) _
  trivial

theorem execLdVxK_completes (x : Nibble) (s : State) : ∃ t, execLdVxK x s = .next t := by
  unfold execLdVxK
  split <;> exact ⟨_, rfl⟩

section
variable {s : State} (hsize : s.stack.length = s.params.stackDepth) (hsp : s.sp ≤ s.params.stackDepth)
include hsize hsp

/-- A stack that is not full has the entry a push writes. -/
theorem pushReturn_completes (a : Word) : (pushReturn a s).Completes := by
  obtain ⟨-, he⟩ | ⟨-, -, he⟩ | ⟨hfree, hout, -⟩ := pushReturn_cases a s
  · rw [he]; trivial
  · rw [he]; trivial
  · omega

/-- A stack that is not empty has the entry a pop reads. -/
theorem popIntoPc_completes : (popIntoPc s).Completes := by
  obtain ⟨-, he⟩ | ⟨a, -, -, he⟩ | ⟨hlive, hout, -⟩ := popIntoPc_cases s
  · rw [he]; trivial
  · rw [he]; trivial
  · have := List.getElem?_eq_none_iff.mp hout
    omega

theorem execCall_completes (nnn : Addr) : ∃ t, execCall nnn s = .next t := by
  refine Part.Completes.finish ((pushReturn_completes hsize hsp s.pc).andThen fun t => ?_) (.call nnn) _
  trivial

/-- On a sound stack every instruction answers a next state. -/
theorem exec_completes (i : Instr) : ∃ t, exec i s = .next t :=
  match i with
  | .ret x => (popIntoPc_completes hsize hsp).finish (.ret x) _
  | .call nnn => execCall_completes hsize hsp nnn
  | .drw x y n => execDrw_completes x y n s
  | .skp x => keySkip_completes (.skp x) x true s
  | .sknp x => keySkip_completes (.sknp x) x false s
  | .ldVxK x => execLdVxK_completes x s
  | .ldB x => (storeBytes_completes _ _ s).finish (.ldB x) _
  | .ldMemVx x => (storeBytes_completes _ _ s).finish (.ldMemVx x) _
  | .ldVxMem x => (loadRegs_completes _ x s).finish (.ldVxMem x) _
  | .cls _ | .jp _ | .jpV0 _ | .seImm .. | .sneImm .. | .seReg .. | .sneReg .. | .ldImm .. | .addImm .. | .ldReg ..
  | .orReg .. | .andReg .. | .xorReg .. | .addReg .. | .subReg .. | .shr .. | .subnReg .. | .shl .. | .rnd .. | .ldI _
  | .addI _ | .ldF _ | .ldVxDt _ | .ldDtVx _ | .ldStVx _ => ⟨_, rfl⟩

theorem tick_completes : ∃ t, tick s = .next t := by
  obtain ⟨-, he⟩ | ⟨-, -, he⟩ | ⟨w, r, -, -, -, -, he⟩ | ⟨w, i, -, -, -, -, he⟩ := tick_cases s
  · exact ⟨_, he⟩
  · exact ⟨_, he⟩
  · exact ⟨_, he⟩
  · rw [he]
    exact exec_completes (s := s.setPc (s.pc + 2)) hsize hsp i

end

/-- Settles O45: the sample keeps the stack, which the invariant makes sound, so the Tick completes if it is due. -/
theorem everyPollCompletes : Obligations.EveryPollCompletes := by
  intro s p rest hinv h
  obtain ⟨t, ht⟩ := tick_completes (s := sample p { s with host := rest }) hinv.stackSize hinv.spInRange
  rw [step_of_pending h]
  split
  · exact ⟨_, congrArg (mapNext _) ht⟩
  · exact ⟨_, rfl⟩

/-! ## SOUND (R225) -/

theorem outputs_sound_iff (s : State) : s.outputs.sound = true ↔ 0 < s.st.toNat := decide_eq_true_iff

theorem sound_congr {s t : State} (h : t.st = s.st) : t.outputs.sound = s.outputs.sound := by
  simp only [State.outputs, h]

/-- FX18 alone may write ST (10_state section 1). -/
theorem eq_ldStVx_of_mayWrite_soundTimer {i : Instr} (h : mayWritePiece i .soundTimer = true) : ∃ x, i = .ldStVx x := by
  cases i with
  | ldStVx x => exact ⟨x, rfl⟩
  | _ => exact nomatch h

/-- Settles O50: SOUND is read off ST, which an instruction that is not FX18 keeps. -/
theorem soundChangesOnlyWithFx18 : Obligations.SoundChangesOnlyWithFx18 := by
  intro i s t ht
  refine ⟨outputs_sound_iff t, fun hsound => ?_⟩
  have hwrites : mayWritePiece i .soundTimer = true := by
    by_contra hkept
    exact hsound (sound_congr ((exec_writesAsNamed i s t ht).1 .soundTimer (Bool.eq_false_iff.mpr hkept)))
  obtain ⟨x, rfl⟩ := eq_ldStVx_of_mayWrite_soundTimer hwrites
  rw [exec_ldStVx] at ht
  cases ht
  exact ⟨x, rfl, rfl⟩

end Sys2Proof.Machine
end

section
/-! Proofs of the statements about fatal conditions (60_exceptions): which instruction can raise which one, and that a
halted core is left by a Reset alone. Where an instruction's row names no error record, it keeps it (10_state section
1); what the others raise is read off the operation they are made of. -/

namespace Sys2Proof.Machine

/-! ## The matrix of fatal conditions (R269) -/

/-- From `s` to `t` the error record is kept, or it is that of the one cause the matrix gives the instruction. -/
def raisesAsNamed (i : Instr) (s t : State) : Prop :=
  Piece.same .errorRecord s t ∨ ∃ c, causeOf i = some c ∧ haltedWith c.code (encode i) (s.pc - 2) t

/-- A piece of the instruction that went on kept the error record, and one that raised did so for the instruction's
cause. -/
def Part.RaisesAsNamed (i : Instr) (s : State) : Part → Prop
  | .went t => Piece.same .errorRecord s t
  | .raised c _ => causeOf i = some c
  | .broken _ => True

section
variable {i : Instr} {s : State}

theorem finish_raisesAsNamed {p : Part} (h : p.RaisesAsNamed i s) :
    nextHolds (raisesAsNamed i s) (finish i (s.pc - 2) p) := by
  cases p with
  | went t => exact nextHolds_next (.inl h)
  | raised c t => exact nextHolds_next (.inr ⟨c, h, haltedWith_raise c _ _ t⟩)
  | broken r => rintro _ ⟨⟩

theorem popIntoPc_raisesAsNamed (hcause : causeOf i = some .stackUnderflow) : (popIntoPc s).RaisesAsNamed i s := by
  obtain ⟨-, he⟩ | ⟨a, -, -, he⟩ | ⟨-, -, he⟩ := popIntoPc_cases s <;> rw [he]
  · exact hcause
  · exact (changesOnly_setStack s s.stack _ a).2.1 .errorRecord (by decide)
  · trivial

theorem storeBytes_raisesAsNamed (hcause : causeOf i = some .memoryFault) (a : Nat) (bs : List Byte) :
    (storeBytes a bs s).RaisesAsNamed i s := by
  rw [storeBytes_eq]
  split
  · exact keepsPiecesBut_setBytes [] s a bs .errorRecord List.not_mem_nil
  · exact hcause

theorem loadRegs_raisesAsNamed (hcause : causeOf i = some .memoryFault) (a : Nat) (x : Nibble) :
    (loadRegs (x.toNat + 1) 0 a s).RaisesAsNamed i s := by
  obtain ⟨t, -, hpieces, he⟩ := loadRegs_loaded a x s
  rw [he]
  split
  · exact hpieces .errorRecord List.not_mem_nil
  · exact hcause

theorem keySkip_raisesAsNamed (hcause : causeOf i = some .keyIndexFault) (x : Nibble) (want : Bool) :
    nextHolds (raisesAsNamed i s) (keySkip i x want s) := by
  refine finish_raisesAsNamed ?_
  split
  · exact hcause
  · exact (changesOnly_skipIf _ s).2.1 .errorRecord (by decide)

end

theorem exec_call_raisesAsNamed (nnn : Addr) (s : State) :
    nextHolds (raisesAsNamed (.call nnn) s) (exec (.call nnn) s) := by
  rw [exec_call]
  refine finish_raisesAsNamed ?_
  obtain ⟨-, he⟩ | ⟨-, -, he⟩ | ⟨-, -, he⟩ := pushReturn_cases s.pc s <;> rw [he]
  · exact rfl
  · exact (changesOnly_setStack s _ _ (absoluteTarget nnn)).2.1 .errorRecord (by decide)
  · trivial

/-- A sprite of no rows reads no memory, so the draw that raises has a row. -/
theorem exec_drw_raisesAsNamed (x y n : Nibble) (s : State) :
    nextHolds (raisesAsNamed (.drw x y n) s) (exec (.drw x y n) s) := by
  obtain ⟨t, -, hframe, he⟩ := drawRows_drawn (s.reg x) (s.reg y) n s
  rw [exec_drw, he]
  refine finish_raisesAsNamed ?_
  split
  · exact (hframe.trans (changesOnly_setDirty t true)).2.1 .errorRecord (by decide)
  · next hfault => exact if_neg fun hn => hfault (.inr (congrArg BitVec.toNat hn))

/-- An instruction keeps the error record or raises its own cause. -/
theorem exec_raisesAsNamed (i : Instr) (s : State) : nextHolds (raisesAsNamed i s) (exec i s) := by
  cases i with
  | ret x => exact finish_raisesAsNamed (popIntoPc_raisesAsNamed rfl)
  | call nnn => exact exec_call_raisesAsNamed nnn s
  | drw x y n => exact exec_drw_raisesAsNamed x y n s
  | skp x => exact keySkip_raisesAsNamed rfl x true
  | sknp x => exact keySkip_raisesAsNamed rfl x false
  | ldB x => exact finish_raisesAsNamed (storeBytes_raisesAsNamed rfl _ _)
  | ldMemVx x => exact finish_raisesAsNamed (storeBytes_raisesAsNamed rfl _ _)
  | ldVxMem x => exact finish_raisesAsNamed (loadRegs_raisesAsNamed rfl _ x)
  | _ => exact fun t ht => .inl ((exec_writesAsNamed _ s t ht).1 .errorRecord rfl)

theorem raisesAsNamed.sameErrorRecord {i : Instr} {s t : State} (h : raisesAsNamed i s t)
    (hraise : mayRaise i = false) : Piece.same .errorRecord s t := by
  obtain hsame | ⟨c, hcause, -⟩ := h
  · exact hsame
  · simp [mayRaise, hcause] at hraise

/-- An instruction that can raise nothing completes whatever the stack: it is neither RET nor CALL. -/
theorem exec_completes_of_not_mayRaise {i : Instr} (hraise : mayRaise i = false) (s : State) :
    ∃ t, exec i s = .next t := by
  cases i with
  | ret | call | skp | sknp | ldB | ldMemVx | ldVxMem => exact nomatch hraise
  | drw x y n => exact execDrw_completes x y n s
  | ldVxK x => exact execLdVxK_completes x s
  | _ => exact ⟨_, rfl⟩

/-- Settles O59: each instruction keeps the error record or raises its own cause, and the stack is all that can keep one
from completing. -/
theorem onlyTheListedInstructionsRaise : Obligations.OnlyTheListedInstructionsRaise := by
  intro i s
  refine ⟨fun hraise => ?_, fun hsize hsp => exec_completes hsize hsp i, exec_raisesAsNamed i s⟩
  obtain ⟨t, ht⟩ := exec_completes_of_not_mayRaise hraise s
  exact ⟨t, ht, (exec_raisesAsNamed i s t ht).sameErrorRecord hraise⟩

/-! ## The halted core (R261) -/

section
variable {s : State} (hhalted : s.halted = true)
include hhalted

theorem tick_of_halted : tick s = .next s := if_pos hhalted

theorem pollStep_of_halted (p : PollInput) : pollStep p s = .next s := if_pos hhalted

theorem decrementTimers_of_halted : decrementTimers s = s := if_pos hhalted

theorem refresh_of_halted : refresh s = s := if_pos hhalted

end

/-- A Reset that passes the three checks is not refused (70 R290). -/
theorem resetCore_of_legal {p : Params} {rom : List Byte} (hp : p.wellFormed = true) (hrom : rom.length ≤ 3584)
    (now : Micros) (todo : List HostEvent) : resetCore p rom now todo = .next (resetWith p rom now todo) := by
  obtain ⟨hhz, hfont⟩ := Bool.and_eq_true_iff.mp hp
  simp [resetCore, romFits_iff.mpr hrom, hhz, hfont]

/-- Settles O10: each activity tests the halted state first, and a legal Reset takes nothing from the state before. -/
theorem haltedCoreLeavesOnlyByReset : Obligations.HaltedCoreLeavesOnlyByReset := by
  intro s hhalted
  refine ⟨tick_of_halted hhalted, pollStep_of_halted hhalted, decrementTimers_of_halted hhalted,
    refresh_of_halted hhalted, fun p rom now rest hhost hp hrom => ?_⟩
  rw [step_of_reset hhost, resetCore_of_legal hp hrom]
  exact ⟨_, rfl, rfl, rfl⟩

end Sys2Proof.Machine
end

section
/-! Proofs of the statements about reset and hazards (70_reset_and_hazards): the state a Reset leaves, FX15 against the
timer decrement of its own iteration, and the jump to itself that ends a run. -/

namespace Sys2Proof.Machine

/-! ## Memory after a Reset (R290, 20_memory R51, R66) -/

/-- The font's cells before any ROM or store. -/
theorem initialByte_font (p : Params) {k : Nat} (hk : k < 80) : initialByte p (p.fontBase + k) = p.fontData[k] := by
  have hfont : p.fontBase ≤ p.fontBase + k ∧ p.fontBase + k < p.fontBase + 80 := by omega
  simp [initialByte, hfont]

/-- Every other cell before any ROM or store. -/
theorem initialByte_outside {p : Params} {a : Nat} (h : a < p.fontBase ∨ p.fontBase + 80 ≤ a) :
    initialByte p a = 0x00 :=
  dif_neg (by omega)

section
variable (p : Params) {rom : List Byte} (now : Micros) (todo : List HostEvent)

/-- A Reset copies the image into the memory that a Reset with the empty image leaves (20_memory R66). -/
theorem resetWith_eq_setBytes :
    resetWith p rom now todo = (resetWith p [] now todo).setBytes 0x200 rom := rfl

theorem byteAt_resetWith_rom (hrom : rom.length ≤ 3584) {k : Nat} (hk : k < rom.length) :
    (resetWith p rom now todo).byteAt (0x200 + k) = some rom[k] := by
  rw [resetWith_eq_setBytes]
  exact byteAt_setBytes_inside (wf_nil p) (by omega) hk

theorem byteAt_resetWith_outside {a : Nat} (ha : a ≤ 4095) (hout : a < 0x200 ∨ 0x200 + rom.length ≤ a) :
    (resetWith p rom now todo).byteAt a = some (initialByte p a) := by
  rw [resetWith_eq_setBytes, byteAt_setBytes_outside _ hout]
  exact byteAt_eq_some.mpr ⟨ha, rfl⟩

theorem reg_resetWith (x : Nibble) : (resetWith p rom now todo).reg x = 0x00 := Vector.getElem_replicate x.isLt

end

/-- Settles O52: a legal Reset answers `resetWith`, whose memory is the image over what unlisted cells read as. -/
theorem resetGivesTheResetState : Obligations.ResetGivesTheResetState := by
  intro s p rom now rest hhost hp hrom
  refine ⟨resetWith p rom now rest, by rw [step_of_reset hhost, resetCore_of_legal hp hrom], rfl,
    reg_resetWith p now rest, rfl, rfl, List.length_replicate, fun a => List.eq_of_mem_replicate, rfl, rfl,
    fun row col _ _ => pixelAt_blankScreen row col, rfl, rfl, rfl, rfl, rfl, rfl, rfl, rfl, rfl,
    fun k hk => byteAt_resetWith_rom p now rest hrom hk, fun a ha hout => ⟨fun k hk hfont => ?_, fun hnot => ?_⟩⟩
  · rw [byteAt_resetWith_outside p now rest ha hout, hfont, initialByte_font p hk]
  · rw [byteAt_resetWith_outside p now rest ha hout, initialByte_outside hnot]

/-! ## FX15 and the decrement of its own iteration (R297) -/

theorem dt_refresh (s : State) : (refresh s).dt = s.dt := by
  unfold refresh
  split <;> rfl

/-- Whether or not the display is refreshed too, the timer clock's firing takes DT one step down. -/
theorem toNat_dt_afterTick_of_timer {f : Fired} {s : State} (hrun : s.halted = false) (htimer : f.timer = true) :
    (afterTick f s).dt.toNat = s.dt.toNat - 1 := by
  have hdec : (decrementTimers s).dt = countDown s.dt := by rw [decrementTimers_of_running hrun]
  rw [afterTick_of_running hrun, if_pos htimer, ← toNat_countDown, ← hdec]
  split
  · rw [dt_refresh]
  · rfl

theorem pc_afterTick (f : Fired) (s : State) : (afterTick f s).pc = s.pc :=
  (afterTick_spec f s).2.2 .programCounter (by decide)

/-- Settles O47: the Tick loads DT with `Vx`, and the decrement, which comes after it, takes 1 off. -/
theorem delayLoadedThenDecrementedInOneIteration : Obligations.DelayLoadedThenDecrementedInOneIteration := by
  intro s p rest x h hcpu htimer hword _
  have hstep := stepRunsTheDecodedInstruction s p rest _ _ h hcpu hword (decodeWord_encode (.ldDtVx x))
  rw [exec_ldDtVx, mapNext] at hstep
  have hfired : (firedAt p.now s).timer = true := by
    rw [firedAt_of_pending h]
    exact decide_eq_true htimer
  obtain ⟨-, hrun, -⟩ := h
  refine ⟨_, hstep, toNat_dt_afterTick_of_timer ?_ hfired, pc_afterTick _ _⟩
  exact hrun

/-! ## The end of a run (R294) -/

/-- Settles O60: the jump writes into PC the address it was fetched from. -/
theorem jumpToSelfIsTheEndOfARun : Obligations.JumpToSelfIsTheEndOfARun := by
  intro s hend
  obtain ⟨hrun, nnn, hpc, hword⟩ := hend
  have hself : absoluteTarget nnn = s.pc := BitVec.eq_of_toNat_eq ((toNat_absoluteTarget nnn).trans hpc.symm)
  rw [tick_of_decoded hrun hword (decodeWord_encode (.jp nnn)), exec_jp, hself]
  rfl

end Sys2Proof.Machine
end
